-- ==== Sys2Proof/Word.lean ====
section
/-! DEFINITION. The word types of the unit (spec 00_scope.md, rule R4): nothing else. -/

namespace Sys2Proof

/-- A logical value: `VALUE_W` = 64 bits, unsigned (R4, R118 a). -/
abbrev Word := BitVec 64

/-- A wire byte: `BYTE_W` = 8 bits (R4, R60). Also the width of a command word, `CMD_W` (R4, R66). -/
abbrev Byte := BitVec 8

end Sys2Proof
end

