-- ==== Sys2Proof/Syntax.lean ====
section
/-! DEFINITION. The syntax of the unit's commands: the five operations (R67) and the fields of a command word (R66). -/

namespace Sys2Proof

/-- The five commands of the opcode map (30_encoding.md R67). A command carries no operand: operands come from the fixed
registers and from the byte source (R70). -/
inductive Instr where
  /-- `SIZE`, word `0x00`: the size of `VAL_IN` (R90). -/
  | size
  /-- `DECP.B`, word `0x04`: permissive decode from the buffer (R130). -/
  | decpB
  /-- `DECP.S`, word `0x05`: permissive decode from the stream (R131). -/
  | decpS
  /-- `DECS.B`, word `0x06`: strict decode from the buffer (R150). -/
  | decsB
  /-- `DECS.S`, word `0x07`: strict decode from the stream (R151). -/
  | decsS
  deriving DecidableEq, Repr

/-- The fields of a command word (R66), as they stand in the word, legal or not. -/
structure CmdFields where
  /-- Bits 7:4, `Z`. -/
  z : BitVec 4
  /-- Bits 3:2, `OPC`. -/
  opc : BitVec 2
  /-- Bit 1, `STRICT`. -/
  strict : Bool
  /-- Bit 0, `STREAM`. -/
  stream : Bool
  deriving DecidableEq, Repr

end Sys2Proof
end

