-- ==== Sys2Proof/WellFormed.lean ====
section
/-! DEFINITION. The checks on the fields of a command word (R66, R68), and on a command. -/

namespace Sys2Proof

/-- R66: bits 7:4 must be 0. -/
def CmdFields.zClear (f : CmdFields) : Bool := f.z == 0#4

/-- R66: `OPC` is SIZE (0) or DECODE (1); 2 and 3 are reserved. -/
def CmdFields.opcDefined (f : CmdFields) : Bool := f.opc == 0#2 || f.opc == 1#2

/-- R66: `STRICT` and `STREAM` must be 0 for SIZE. -/
def CmdFields.sizePlain (f : CmdFields) : Bool := !(f.opc == 0#2 && (f.strict || f.stream))

/-- The fields of a legal command word: all three checks of R66 and R68 hold. -/
def CmdFields.wf (f : CmdFields) : Bool := f.zClear && f.opcDefined && f.sizePlain

/-- A command has no operand (R70), so every command is well formed. -/
def Instr.wf (i : Instr) : Bool :=
  match i with
  | .size => true
  | .decpB => true
  | .decpS => true
  | .decsB => true
  | .decsS => true

end Sys2Proof
end

