-- ==== Sys2Proof/Decode.lean ====
section
/-! DEFINITION. The decoder of command words, total on all 256 words and rejecting by name (R66 to R68), and after it the
encoder. -/

namespace Sys2Proof

/-- Why a word is no command (R68). -/
inductive CmdReject where
  /-- A bit of 7:4 is set. -/
  | reservedBits
  /-- `OPC` is `0b10` or `0b11`. -/
  | reservedOpc
  /-- `OPC` is SIZE and `STRICT` or `STREAM` is set. -/
  | sizeWithMode
  deriving DecidableEq, Repr

/-- What a command word decodes to (R68: "five decode to an operation, 251 decode to illegal"). -/
inductive Decoded where
  | command (i : Instr)
  | illegal (why : CmdReject)
  deriving DecidableEq, Repr

/-- The fields of a word (R66). -/
def fieldsOf (w : Byte) : CmdFields :=
  { z := w.extractLsb' 4 4, opc := w.extractLsb' 2 2, strict := w.getLsbD 1, stream := w.getLsbD 0 }

/-- The command with these fields, or why there is none (R67, R68). -/
def commandOf (f : CmdFields) : Decoded :=
  if !f.zClear then .illegal .reservedBits
  else if !f.opcDefined then .illegal .reservedOpc
  else if !f.sizePlain then .illegal .sizeWithMode
  else if f.opc == 0#2 then .command .size
  else match f.strict, f.stream with
    | false, false => .command .decpB
    | false, true => .command .decpS
    | true, false => .command .decsB
    | true, true => .command .decsS

/-- The decoder, on all 256 words (R67, R68). -/
def decodeCmd (w : Byte) : Decoded := commandOf (fieldsOf w)

/-- What the decoder reads from an instruction of `nbits` bits whose bits are `w`. Every command is one 8-bit word
(R66, R71), so no other length is an instruction. -/
def decodeTableWord (nbits w : Nat) : Option Instr :=
  if nbits = 8 then
    match decodeCmd (BitVec.ofNat 8 w) with
    | .command i => some i
    | .illegal _ => none
  else none

/-- The fields of a command's word (R67). -/
def fieldsFor (i : Instr) : CmdFields :=
  match i with
  | .size => { z := 0#4, opc := 0#2, strict := false, stream := false }
  | .decpB => { z := 0#4, opc := 1#2, strict := false, stream := false }
  | .decpS => { z := 0#4, opc := 1#2, strict := false, stream := true }
  | .decsB => { z := 0#4, opc := 1#2, strict := true, stream := false }
  | .decsS => { z := 0#4, opc := 1#2, strict := true, stream := true }

/-- The word with these fields (R66): `Z`, `OPC`, `STRICT`, `STREAM` from bit 7 down. -/
def packFields (f : CmdFields) : Byte :=
  f.z ++ f.opc ++ BitVec.ofBool f.strict ++ BitVec.ofBool f.stream

/-- The encoder: the word of a command (R67). -/
def encode (i : Instr) : Byte := packFields (fieldsFor i)

end Sys2Proof
end

