-- ==== Sys2Proof/Config.lean ====
section
/-! DEFINITION. What an implementation fixes (the default of the open parameter `LEN_W` of R4) and the free values: what the
spec calls `any`, or on which it states nothing. A free value is opaque, so no proof can learn it. -/

namespace Sys2Proof.Config

/-- The default of `LEN_W` (R4). The width itself is open, at least 4, and is the field `State.lenW`; `State.reset` has this
one (DESIGN CHOICE, log 1). -/
def lenWDefault : Nat := 32

/-- The `n`-th draw of a value the spec calls `any` in `VALUE` (R15, R114; U1). A free value (log 2): one fresh draw at
each completion that is not a decode `OK`. -/
opaque anyValue : Nat → Word

/-- What the buffer byte at an offset reads as while the host has never stored there: R41 says only what a stored byte
reads as. A free value (log 3). -/
opaque unwrittenByte : Nat → Byte

/-- The `n`-th draw of a byte left in the buffer by a failed reference `encode` (R101; U2). A free value (log 14). -/
opaque anyByte : Nat → Byte

end Sys2Proof.Config
end

