-- ==== Sys2Proof/Machine/State.lean ====
section
/-! DEFINITION. The state of the machine as plain data: the registers of the unit (R10), the buffer and the stream outside
it (R26, R40), the host's coming actions, and the model's own draw counter. The reasons a step can stop. Reset. -/

namespace Sys2Proof.Machine

/-- The buffer space BUF (R40, R41) as a list of (offset, byte) pairs, offsets strictly rising (`Memory.wf`). An unlisted
offset holds no byte the host stored. -/
abbrev Memory := List Host.Cell

/-- An answer, or the absence of one, of the stream source to one request (R42). -/
inductive SrcEvent where
  /-- `Byte(b)`: the next unread byte, which is removed from the stream. -/
  | byte (b : Byte)
  /-- `End`: the source says that it is exhausted; nothing is removed. It need not be permanent (R42, U11). -/
  | eof
  /-- No answer yet: the unit takes no step this time (R42, R206). -/
  | notYet
  deriving DecidableEq, Repr

/-- What the source does when its listed answers are used up (log 7). -/
inductive SrcAfter where
  /-- A closed stream: every later request answers `End` (R69, line `STRM`). -/
  | closed
  /-- The source never answers again (R206, U9). -/
  | silent
  deriving DecidableEq, Repr

/-- One action of the host, or of another agent outside the unit (R12, R27, R69, R200, R203; log 4). -/
inductive HostAct where
  /-- A write of a number to the register with this number. Of a value wider than the register the low bits are written
(DEDUCED, log 5). -/
  | write (no : Nat) (v : Nat)
  /-- A read of the register with this number (R27). -/
  | read (no : Nat)
  /-- The host stores a byte at an offset of the buffer (R40, R41). -/
  | store (off : Nat) (b : Byte)
  /-- The host loads the byte at an offset of the buffer (R40; log 21). -/
  | load (off : Nat)
  /-- The environment attaches a stream (R69, line `STRM`; R202). -/
  | attach (answers : List SrcEvent) (after : SrcAfter)
  /-- Another agent takes the next byte of the stream (R208, U12). -/
  | takeStream
  /-- The reset input is applied (R200, R201). -/
  | reset
  /-- The host does nothing: the unit has this turn. -/
  | pass
  /-- The host waits until `STATUS.DONE = 1`; until then the unit has the turns (R69). -/
  | wait
  deriving DecidableEq, Repr

/-- Why the machine stops with a fault. No command does: every failure of the unit is a completion, a next state (R170,
R180), and it compares `IDX` with `BUF_LEN` before every read (R41, R111). -/
inductive Fault where
  /-- An offset that `LEN_W` bits do not hold, so no offset of BUF (R40; log 21). Raised by the host's store and load. Safe:
  there is no such byte. -/
  | noSuchOffset
  deriving DecidableEq, Repr

/-- Why the model does not go on: host duties the spec says a model refuses (93_implementation_defined.md). -/
inductive Refusal where
  /-- An instruction without a meaning, by its mnemonic. Raised by no arm of `exec` now. Safe: nothing follows it. -/
  | notModelled (mnemonic : String)
  /-- A `CMD` write while `BUSY = 1` (R203, U4). Raised by the host's register write, and by a meaning asked to run while
  another command runs. Safe: the spec gives no behaviour. -/
  | cmdWhileBusy
  /-- A write of `VAL_IN` or `BUF_LEN` while `BUSY = 1` (R203, U5). Raised by the host's register write. Safe. -/
  | operandWhileBusy
  /-- A store to one of the first `min(BUF_LEN, 11)` buffer bytes during a buffer operation (R48, R204, U6). Raised by the
  host's store. Safe. -/
  | bufferWhileBusy
  /-- Another agent at the stream of a running stream operation (R208, U12). Raised by taking from or attaching a stream.
  Safe. -/
  | streamWhileBusy
  deriving DecidableEq, Repr

/-- The machine's state. -/
structure State where
  /-- The parameter `LEN_W`, the width in bits of `BUF_LEN` and of a buffer offset (R4, R14, R40): open, at least 4. No step
  changes it; what is said of every state is said of every width (the model's own field, log 1). -/
  lenW : Nat
  /-- `STATUS`, register 1 (R12): bit 7 `BUSY`, bit 6 `DONE`, bits 5:4 reserved, bits 3:0 `CODE`. -/
  status : BitVec 8
  /-- `VAL_IN`, register 2 (R13). -/
  valIn : Word
  /-- `BUF_LEN`, register 3 (R14): the unsigned number its `LEN_W` bits hold, so below `2^LEN_W`. -/
  bufLen : Nat
  /-- `VALUE`, register 4 (R15). -/
  value : Word
  /-- `COUNT`, register 5 (R16). -/
  count : BitVec 4
  /-- `ACC` (R17). -/
  acc : Word
  /-- `SHIFT` (R18). -/
  shift : BitVec 7
  /-- `IDX` (R19). -/
  idx : BitVec 4
  /-- `OPK` (R20): false SIZE, true DECODE. -/
  opk : Bool
  /-- `STRICT` (R20): false permissive, true strict. -/
  strict : Bool
  /-- `STREAM` (R20): false buffer, true stream. -/
  stream : Bool
  /-- The buffer, outside the unit (R26 a, R40, R41). -/
  buf : Memory
  /-- The stream, outside the unit (R26 b, R42): the answers the source has still to give, the next one first. -/
  strm : List SrcEvent
  /-- What the source does after them. -/
  strmAfter : SrcAfter
  /-- The host's coming actions, the next one first (the model's own field, log 4). -/
  host : List HostAct
  /-- What the host's last read of a register or of a buffer byte returned, an unsigned number (the model's own field, log 6). -/
  hostRead : Nat
  /-- How many free values have been drawn (the model's own field, log 2). -/
  draws : Nat
  deriving DecidableEq, Repr

/-- The machine right after reset (R30, R200), with nothing stored in the buffer, a silent stream port and no host action
coming (log 3, 4, 7), for a unit whose `LEN_W` is `w`. -/
def State.resetWith (w : Nat) : State :=
  { lenW := w, status := 0x00#8, valIn := 0#64, bufLen := 0, value := 0#64, count := 0#4
    acc := 0#64, shift := 0#7, idx := 0#4, opk := false, strict := false, stream := false
    buf := [], strm := [], strmAfter := .silent, host := [], hostRead := 0, draws := 0 }

/-- The machine right after reset, of the default width (R4, R30; log 1). -/
def State.reset : State := State.resetWith Config.lenWDefault

end Sys2Proof.Machine
end

