-- ==== Sys2Proof/Machine/Flags.lean ====
section
/-! DEFINITION. The fields of `STATUS` (R12), the unit's only flags, and the completion codes (R170). -/

namespace Sys2Proof.Machine

/-- The completion kinds (R170). -/
inductive Code where
  /-- No completion yet, since reset or the last start. -/
  | none
  /-- Success (R171). -/
  | ok
  /-- A buffer exhausted without a terminal byte (R172). -/
  | truncated
  /-- More groups, or a larger last group, than the mode has bits for (R173). -/
  | overflow
  /-- Strict mode: a zero terminal byte that is not the first byte (R174). -/
  | nonMinimal
  /-- A stream exhausted before any byte (R175). -/
  | endOfInput
  /-- A stream exhausted inside a value (R176). -/
  | unexpectedEnd
  /-- The encoder's kind; no operation of the unit raises it (R177). -/
  | bufferTooSmall
  /-- A `CMD` write of an illegal word (R178). -/
  | illegalCmd
  deriving DecidableEq, Repr

/-- The numeric codes of R170. -/
def Code.bits : Code → BitVec 4
  | .none => 0#4
  | .ok => 1#4
  | .truncated => 2#4
  | .overflow => 3#4
  | .nonMinimal => 4#4
  | .endOfInput => 5#4
  | .unexpectedEnd => 6#4
  | .bufferTooSmall => 7#4
  | .illegalCmd => 8#4

/-- `STATUS.BUSY`, bit 7 (R12). -/
def State.busy (s : State) : Bool := s.status.getLsbD 7

/-- `STATUS.DONE`, bit 6 (R12). -/
def State.done (s : State) : Bool := s.status.getLsbD 6

/-- `STATUS.CODE`, bits 3:0 (R12). -/
def State.code (s : State) : BitVec 4 := s.status.extractLsb' 0 4

/-- `STATUS` with `BUSY`, `DONE` and `CODE` written; the reserved bits 5:4 are never written (R12; log 13). -/
def statusWith (busy done : Bool) (code : BitVec 4) (old : BitVec 8) : BitVec 8 :=
  BitVec.ofBool busy ++ BitVec.ofBool done ++ old.extractLsb' 4 2 ++ code

/-- `STATUS` as a host reads it: the reserved bits read as 0 (R12; log 13). -/
def State.statusRead (s : State) : BitVec 8 := s.status &&& 0xCF#8

/-- The three phases (R21). -/
inductive Phase where
  | idle
  | run
  | done
  deriving DecidableEq, Repr

/-- The phase, read off `STATUS` (R21). With `BUSY = DONE = 1`, which never happens (R12), a busy unit is in RUN (log 11). -/
def State.phase (s : State) : Phase :=
  if s.busy then .run else if s.done then .done else .idle

end Sys2Proof.Machine
end

