-- ==== Sys2Proof/Machine/Ops.lean ====
section
/-! DEFINITION. The named operations the commands share: memory, the start (R110), the finish, which is how every completion,
failing or not, is delivered (R114, R180: the unit's only "exception entry"; there is no return from one, R182), the
illegal command (R68), reset (R200) and the running operation (R115). -/

namespace Sys2Proof.Machine

/-- The byte the host last stored at an offset, if any (R41). -/
def Memory.read? : Memory → Nat → Option Byte
  | [], _ => none
  | (k, b) :: m, a => if a = k then some b else Memory.read? m a

/-- `MemRead(off, 1)` (R41): the byte the host last stored there; a free value where it stored none (log 3). -/
def Memory.read (m : Memory) (a : Nat) : Byte := (Memory.read? m a).getD (Config.unwrittenByte a)

/-- `MemWrite(off, 1, v)`, of the host and of the reference encoder only (R41, R101). It keeps the canonical form. -/
def Memory.write : Memory → Nat → Byte → Memory
  | [], a, v => [(a, v)]
  | (k, b) :: m, a, v =>
    if a < k then (a, v) :: (k, b) :: m
    else if a = k then (a, v) :: m
    else (k, b) :: Memory.write m a v

/-- Bytes written one after another from an offset up. -/
def Memory.writeAll (m : Memory) (a : Nat) : List Byte → Memory
  | [] => m
  | b :: bs => Memory.writeAll (Memory.write m a b) (a + 1) bs

/-- Offsets strictly rising, from `lo` on. -/
def Memory.wfFrom (lo : Nat) : Memory → Bool
  | [] => true
  | (k, _) :: m => decide (lo ≤ k) && Memory.wfFrom (k + 1) m

/-- The canonical form of a memory: offsets strictly rising. An unlisted offset holds no byte, so no
listed byte equals what an unlisted one reads as. -/
def Memory.wf (m : Memory) : Bool := Memory.wfFrom 0 m

/-- Every listed offset is below a bound. -/
def Memory.below (n : Nat) (m : Memory) : Bool := m.all fun c => decide (c.1 < n)

/-- `finish(code, value, count)` (R114): the end of an operation. No value (`any`) is a fresh draw (R15; log 2). -/
def State.finish (code : Code) (value : Option Word) (count : BitVec 4) (s : State) : State :=
  match value with
  | some v =>
    { s with value := v, count := count, status := statusWith false true code.bits s.status }
  | none =>
    { s with
      value := Config.anyValue s.draws, draws := s.draws + 1, count := count
      status := statusWith false true code.bits s.status }

/-- The start of an operation by a legal command word (R110). -/
def State.start (w : Byte) (s : State) : State :=
  { s with
    opk := w.extractLsb' 2 2 == 0b01#2, strict := w.getLsbD 1, stream := w.getLsbD 0
    acc := 0#64, shift := 0#7, idx := 0#4
    status := statusWith true false Code.none.bits s.status }

/-- A `CMD` write of an illegal word (R68, R178): `finish(ILLEGAL_CMD, any, 0)`, and nothing else. -/
def State.illegalCommand (s : State) : State := s.finish .illegalCmd none 0#4

/-- The operation the latches select (R115): SIZE if `OPK = 0`, else by `STRICT` and `STREAM`. -/
def State.running (s : State) : Instr :=
  match s.opk, s.strict, s.stream with
  | false, _, _ => .size
  | true, false, false => .decpB
  | true, false, true => .decpS
  | true, true, false => .decsB
  | true, true, true => .decsS

/-- The transition of a command: in phase IDLE or DONE its start (R110), in phase RUN its unit step (R115). A command cannot
be asked for while another one runs (R203; log 10). -/
def operate (i : Instr) (unitStep : State → State) (s : State) : Host.Outcome State Fault Refusal :=
  if s.busy then
    if s.running = i then .next (unitStep s) else .refused .cmdWhileBusy
  else .next (s.start (encode i))

/-- Reset (R200, R201), in any phase: every register takes its value of R30; the buffer and the stream stay. -/
def State.applyReset (s : State) : State :=
  { State.resetWith s.lenW with
    buf := s.buf, strm := s.strm, strmAfter := s.strmAfter
    host := s.host, hostRead := s.hostRead, draws := s.draws }

end Sys2Proof.Machine
end

