-- ==== Sys2Proof/Machine/Operands.lean ====
section
/-! DEFINITION. The operand forms (R70): the next byte of the source (R111), the tests of a byte (R60, R118 c), and the
outcomes of a decode step that all four policies share (R112, R113, R117, R119). -/

namespace Sys2Proof.Machine

/-- `shl64(v, n)` (00_scope.md section 7.1): `(v * 2^n) mod 2^64`. -/
def shl64 (v : Word) (n : Nat) : Word := v <<< n

/-- The continuation flag, bit 7 of a wire byte (R60). -/
def contFlag (b : Byte) : Bool := b.getLsbD 7

/-- The group of a wire byte, `zext_64(b[6:0])` (R60). -/
def group (b : Byte) : Word := (b.extractLsb' 0 7).setWidth 64

/-- The answer of the source to a fetch (R111): `Byte(b)` or `End`. -/
inductive Input where
  | byte (b : Byte)
  | eof
  deriving DecidableEq, Repr

/-- A fetch: answered, or not answered yet, with the state after it. -/
inductive Fetched where
  | answered (inp : Input) (s : State)
  | blocked (s : State)
  deriving DecidableEq, Repr

/-- `StreamNext()` (R42): a byte is removed from the stream; `End` removes none; a missing answer leaves the unit waiting
(R206; log 7). -/
def streamNext (s : State) : Fetched :=
  match s.strm with
  | .byte b :: rest => .answered (.byte b) { s with strm := rest }
  | .eof :: rest => .answered .eof { s with strm := rest }
  | .notYet :: rest => .blocked { s with strm := rest }
  | [] =>
    match s.strmAfter with
    | .closed => .answered .eof s
    | .silent => .blocked s

/-- The fetch of a buffer operation (R111): `IDX` and `BUF_LEN` compared unsigned, then `MemRead(IDX, 1)`. -/
def bufferNext (s : State) : Input :=
  if s.idx.toNat < s.bufLen then .byte (Memory.read s.buf s.idx.toNat) else .eof

/-- `SrcNext()` (R111): the fetch of the next source byte. -/
def srcNext (s : State) : Fetched :=
  if s.stream then streamNext s else .answered (bufferNext s) s

/-- The loop registers a policy reads: `ACC`, `SHIFT`, `IDX` (R119). -/
structure Loop where
  acc : Word
  shift : BitVec 7
  idx : BitVec 4
  deriving DecidableEq, Repr

/-- The outcome of a decode step (R115, R119): `Continue` or `Done`, where no value is `any`. -/
inductive StepOut where
  | goOn (l : Loop)
  | done (code : Code) (value : Option Word) (count : BitVec 4)
  deriving DecidableEq, Repr

/-- `raise Kind(count)` (R114): `finish` with an undefined value. -/
def raise (code : Code) (count : BitVec 4) : StepOut := .done code none count

/-- Accumulate (R112): the byte's group enters `ACC` at `SHIFT`; `SHIFT` grows by 7 and `IDX` by 1. -/
def accumulate (l : Loop) (b : Byte) : StepOut :=
  .goOn { acc := l.acc ||| shl64 (group b) l.shift.toNat, shift := l.shift + 7#7, idx := l.idx + 1#4 }

/-- `TermValue(b)` (R113). -/
def termValue (l : Loop) (b : Byte) : Word := l.acc ||| shl64 (b.setWidth 64) l.shift.toNat

/-- `EndOfSource()` (R117): the outcome of a fetch that answered `End`, by source kind. -/
def endOfSource (stream : Bool) (l : Loop) : StepOut :=
  if !stream then raise .truncated l.idx
  else if l.idx = 0#4 then raise .endOfInput 0#4
  else raise .unexpectedEnd l.idx

/-- The loop registers of a state. -/
abbrev State.loop (s : State) : Loop := { acc := s.acc, shift := s.shift, idx := s.idx }

/-- The effect of a step's outcome on the state: accumulate writes the loop registers, finish ends the operation
(R112, R114). -/
def State.apply (s : State) (o : StepOut) : State :=
  match o with
  | .goOn l => { s with acc := l.acc, shift := l.shift, idx := l.idx }
  | .done code value count => s.finish code value count

/-- One decode step (R115): exactly one fetch, then the policy. While the source has not answered no step is taken. -/
def decodeStep (policy : Loop → Input → StepOut) (s : State) : State :=
  match srcNext s with
  | .answered inp s' => s'.apply (policy s'.loop inp)
  | .blocked s' => s'

end Sys2Proof.Machine
end

