-- ==== Sys2Proof/Machine/Permissive.lean ====
section
/-! DEFINITION. The permissive decode commands (43_decode_permissive.md): DECP.B (R130) and DECP.S (R131). -/

namespace Sys2Proof.Machine

/-- The policy of DECP.B (R130). That the byte of index 10 ends the operation at once is the spec's decision D7 (log 17). -/
def policyDecpB (l : Loop) (inp : Input) : StepOut :=
  match inp with
  | .eof => endOfSource false l
  | .byte b =>
    if 10 ≤ l.idx.toNat then raise .overflow (l.idx + 1#4)
    else if !contFlag b then
      if l.idx.toNat = 9 ∧ 1 < b.toNat then raise .overflow 10#4
      else .done .ok (some (termValue l b)) (l.idx + 1#4)
    else accumulate l b

/-- The policy of DECP.S (R131). That no 11th byte is requested is the spec's decision D8 (log 17). -/
def policyDecpS (l : Loop) (inp : Input) : StepOut :=
  match inp with
  | .eof => endOfSource true l
  | .byte b =>
    if !contFlag b then
      if 9 ≤ l.idx.toNat ∧ 1 < b.toNat then raise .overflow (l.idx + 1#4)
      else .done .ok (some (termValue l b)) (l.idx + 1#4)
    else if 9 ≤ l.idx.toNat then raise .overflow (l.idx + 1#4)
    else accumulate l b

/-- `DECP.B` (R130). -/
def execDecpB (s : State) : Host.Outcome State Fault Refusal := operate .decpB (decodeStep policyDecpB) s

/-- `DECP.S` (R131). -/
def execDecpS (s : State) : Host.Outcome State Fault Refusal := operate .decpS (decodeStep policyDecpS) s

end Sys2Proof.Machine
end

