-- ==== Sys2Proof/Machine/Size.lean ====
section
/-! DEFINITION. The size calculator (40_size.md): the function `size` (R91) and the command SIZE (R90). -/

namespace Sys2Proof.Machine

/-- `bitlen(v)` (00_scope.md section 7.1): `bitlen(0) = 0`, else `floor(log2 v) + 1`. -/
def bitlen (v : Nat) : Nat := if v = 0 then 0 else Nat.log2 v + 1

/-- `ceil_div(a, d)` (00_scope.md section 7.1): the least `q` with `q * d >= a`, for `d > 0`. -/
def ceilDiv (a d : Nat) : Nat := (a + d - 1) / d

/-- `size(v)` (R91). -/
def size (v : Word) : Nat := if v = 0#64 then 1 else ceilDiv (bitlen v.toNat) 7

/-- The one unit step of SIZE (R90): `finish(OK, any, size(VAL_IN))`. -/
def sizeStep (s : State) : State := s.finish .ok none (BitVec.ofNat 4 (size s.valIn))

/-- `SIZE` (R90). -/
def execSize (s : State) : Host.Outcome State Fault Refusal := operate .size sizeStep s

end Sys2Proof.Machine
end

