-- ==== Sys2Proof/Machine/Strict.lean ====
section
/-! DEFINITION. The strict decode commands (44_decode_strict.md): DECS.B (R150) and DECS.S (R151). -/

namespace Sys2Proof.Machine

/-- What the strict mode does with a fetched byte (R150, and R151 word for word). The clause `9 <= i` is the source's; no run
reaches it (R152). -/
def strictByte (l : Loop) (b : Byte) : StepOut :=
  if (l.idx.toNat = 8 ∧ contFlag b = true) ∨ 9 ≤ l.idx.toNat then raise .overflow (l.idx + 1#4)
  else if !contFlag b then
    if b = 0#8 ∧ 0 < l.shift.toNat then raise .nonMinimal (l.idx + 1#4)
    else .done .ok (some (termValue l b)) (l.idx + 1#4)
  else accumulate l b

/-- The policy of DECS.B (R150). -/
def policyDecsB (l : Loop) (inp : Input) : StepOut :=
  match inp with
  | .eof => endOfSource false l
  | .byte b => strictByte l b

/-- The policy of DECS.S (R151). -/
def policyDecsS (l : Loop) (inp : Input) : StepOut :=
  match inp with
  | .eof => endOfSource true l
  | .byte b => strictByte l b

/-- `DECS.B` (R150). -/
def execDecsB (s : State) : Host.Outcome State Fault Refusal := operate .decsB (decodeStep policyDecsB) s

/-- `DECS.S` (R151). -/
def execDecsS (s : State) : Host.Outcome State Fault Refusal := operate .decsS (decodeStep policyDecsS) s

end Sys2Proof.Machine
end

