-- ==== Sys2Proof/Machine/Dispatch.lean ====
section
/-! DEFINITION. The dispatch: one arm per command. -/

namespace Sys2Proof.Machine

def exec (i : Instr) (s : State) : Host.Outcome State Fault Refusal :=
  match i with
  | .size => Sys2Proof.Machine.execSize s
  | .decpB => Sys2Proof.Machine.execDecpB s
  | .decpS => Sys2Proof.Machine.execDecpS s
  | .decsB => Sys2Proof.Machine.execDecsB s
  | .decsS => Sys2Proof.Machine.execDecsS s

end Sys2Proof.Machine
end

