-- ==== Sys2Proof/Machine/HostPort.lean ====
section
/-! DEFINITION. The host's side of the unit: register accesses (R11 to R16, R27), the `CMD` write (R66 to R68), buffer stores
and loads (R40), the stream attachment, reset, and whose turn it is (R21; log 4). -/

namespace Sys2Proof.Machine

/-- A host read of a register (R27): 0 for the write-only `CMD` and for numbers 6 and above, else the unsigned number the
register holds, so 0 in every bit of a host word above a narrower register. R27 does not speak of those bits: DEDUCED, the
model's reading (log 20). -/
def State.regRead (s : State) (no : Nat) : Nat :=
  match no with
  | 1 => s.statusRead.toNat
  | 2 => s.valIn.toNat
  | 3 => s.bufLen
  | 4 => s.value.toNat
  | 5 => s.count.toNat
  | _ => 0

/-- A host write of a word to `CMD` (R11, R66 to R68): refused while busy (R203, U4), else the command it decodes to, or the
completion `ILLEGAL_CMD`. -/
def cmdWrite (w : Byte) (s : State) : Host.Outcome State Fault Refusal :=
  if s.busy then .refused .cmdWhileBusy
  else match decodeCmd w with
    | .command i => exec i s
    | .illegal _ => .next s.illegalCommand

/-- A host write of a register (R27): `CMD`, `VAL_IN` and `BUF_LEN` take it, the last two not while busy (R203, U5); any other
number is read-only or does not exist, and nothing changes. Of a value wider than the register the low bits are taken: DEDUCED,
the spec speaks of no such write (log 5). -/
def regWrite (no : Nat) (v : Nat) (s : State) : Host.Outcome State Fault Refusal :=
  match no with
  | 0 => cmdWrite (BitVec.ofNat 8 v) s
  | 2 => if s.busy then .refused .operandWhileBusy else .next { s with valIn := BitVec.ofNat 64 v }
  | 3 => if s.busy then .refused .operandWhileBusy else .next { s with bufLen := v % 2 ^ s.lenW }
  | _ => .next s

/-- The buffer bytes that no agent may write now (R48, R204): the first `min(BUF_LEN, 11)` during a buffer operation. -/
def State.holdsBuffer (s : State) (off : Nat) : Bool :=
  s.busy && s.opk && !s.stream && decide (off < min s.bufLen 11)

/-- The buffer space has this offset: it fits in `LEN_W` bits (R40). -/
def State.hasOffset (s : State) (off : Nat) : Bool := decide (off < 2 ^ s.lenW)

/-- A stream operation is running, so no other agent may touch its stream (R208). -/
def State.holdsStream (s : State) : Bool := s.busy && s.opk && s.stream

/-- The state after another agent has asked the stream for its next byte (R42, R208). -/
def takeNext (s : State) : State :=
  match streamNext s with
  | .answered _ s' => s'
  | .blocked s' => s'

/-- The unit's turn: a unit step of the running operation (R115); in phase IDLE or DONE the unit does nothing (R187). -/
def unitTurn (s : State) : Host.Outcome State Fault Refusal :=
  if s.busy then exec s.running s else .next s

/-- One action of the host, already taken off its script. A waiting host leaves the turn to the unit and stays waiting until
`DONE = 1` (R69). -/
def hostTurn (a : HostAct) (s : State) : Host.Outcome State Fault Refusal :=
  match a with
  | .write no v => regWrite no v s
  | .read no => .next { s with hostRead := s.regRead no }
  | .store off b =>
    if !s.hasOffset off then .fault .noSuchOffset
    else if s.holdsBuffer off then .refused .bufferWhileBusy
    else .next { s with buf := Memory.write s.buf off b }
  | .load off =>
    if !s.hasOffset off then .fault .noSuchOffset
    else .next { s with hostRead := (Memory.read s.buf off).toNat }
  | .attach answers after =>
    if s.holdsStream then .refused .streamWhileBusy
    else .next { s with strm := answers, strmAfter := after }
  | .takeStream => if s.holdsStream then .refused .streamWhileBusy else .next (takeNext s)
  | .reset => .next s.applyReset
  | .pass => unitTurn s
  | .wait => if s.done then .next s else unitTurn { s with host := .wait :: s.host }

/-- One transition: the host's next action if it has one, else the unit's turn. -/
def turn (s : State) : Host.Outcome State Fault Refusal :=
  match s.host with
  | [] => unitTurn s
  | a :: rest => hostTurn a { s with host := rest }

/-- The state in which the host's next action is the `CMD` write of this word. Where the unit is busy it is put into phase
IDLE, since a busy unit takes no command (R203; log 9). -/
def State.placeCommand (s : State) (w : Byte) : State :=
  { s with
    status := if s.busy then 0x00#8 else s.status
    host := .write 0 w.toNat :: s.host }

end Sys2Proof.Machine
end

