-- ==== Sys2Proof/Machine/Step.lean ====
section
/-! DEFINITION. The machine's step, and the placing of a command word where the step takes its next one. -/

namespace Sys2Proof.Machine

/-- One step: one host action, or one turn of the unit (R21, R115; log 4). -/
def step : State → Host.Outcome State Fault Refusal := fun s => turn s

/-- The state whose next step runs the command with these bits (R66: one 8-bit word). The unit fetches nothing (R22, R50): a
command is what the host writes to `CMD` next (log 9). -/
def State.withFetchWord (s : State) (nbits w : Nat) : State :=
  s.placeCommand (BitVec.ofNat 8 (w % 2 ^ nbits))

end Sys2Proof.Machine
end

