-- ==== Sys2Proof/Machine/Reference.lean ====
section
/-! DEFINITION. The reference functions of the spec, which are no operation of the unit: the logical value and the canonical
form of an encoded value (R61 to R65), the encoder `Enc` and its buffer form (R100, R101), the sentinel view (R134), and a
whole decode as the iteration of the pure step (R119). -/

namespace Sys2Proof.Machine

/-- `sum over k of bk[6:0] * 2^(7*k)`, with the first byte at index `k` (R61). -/
def valueFrom (k : Nat) : List Byte → Nat
  | [] => 0
  | b :: bs => (b.extractLsb' 0 7).toNat * 2 ^ (7 * k) + valueFrom (k + 1) bs

/-- The logical value of an encoded value (R61). -/
def logicalValue (d : List Byte) : Nat := valueFrom 0 d

/-- An encoded value (R61, R62): continuation bytes, then one terminal byte. -/
def isEncoded : List Byte → Bool
  | [] => false
  | [b] => !contFlag b
  | b :: bs => contFlag b && isEncoded bs

/-- A canonical encoded value (R63): one byte, or a terminal byte that is not `0x00`. -/
def isCanonical (d : List Byte) : Bool := isEncoded d && (d.length == 1 || !(d.getLast? == some 0#8))

/-- The index of the first terminal byte, if there is one (R133, R155). -/
def firstTerminal : List Byte → Option Nat
  | [] => none
  | b :: bs => if contFlag b then (firstTerminal bs).map (· + 1) else some 0

/-- `v[7k+6 : 7k]`, the group of index `k` (R100). -/
def encGroup (v : Word) (k : Nat) : Byte := ((v >>> (7 * k)).extractLsb' 0 7).setWidth 8

/-- `Enc(v)` (R100), in its closed form: the continuation flag on every group except the last. -/
def enc (v : Word) : List Byte :=
  (List.range (size v)).map fun k => if k + 1 < size v then 0x80#8 ||| encGroup v k else encGroup v k

/-- The non-minimal encoding of `v` with `n` bytes, `n > size v` (R65): the flag set on the old terminal byte, zero groups,
and a zero terminal byte. -/
def padded (v : Word) (n : Nat) : List Byte :=
  (enc v).map (0x80#8 ||| ·) ++ List.replicate (n - size v - 1) 0x80#8 ++ [0x00#8]

/-- The result of the buffer form of the encoder (R101). -/
inductive EncResult where
  /-- `bytesWritten`. -/
  | written (n : Nat)
  /-- The kind BufferTooSmall. -/
  | bufferTooSmall
  deriving DecidableEq, Repr

/-- `encode(buffer, value)` on a buffer of `len` bytes (R101): the result, the memory after it, and the draw counter. After a
failure every byte of the buffer is a fresh draw (U2; log 14). -/
def encodeInto (m : Memory) (len : Nat) (v : Word) (draws : Nat) : EncResult × Memory × Nat :=
  if size v ≤ len then (.written (size v), Memory.writeAll m 0 (enc v), draws)
  else
    (.bufferTooSmall,
      Memory.writeAll m 0 ((List.range len).map fun k => Config.anyByte (draws + k)), draws + len)

/-- The document's `consumedLength` of a permissive buffer completion (R134), a mathematical integer; for the codes that
operation never gives there is none. -/
def consumedLength (code : Code) (count : Nat) : Option Int :=
  match code with
  | .ok => some count
  | .truncated => some 0
  | .overflow => some (-count)
  | _ => none

/-- `DecStep` (R119): the policy the latches select (R115). -/
def decStep (strict stream : Bool) : Loop → Input → StepOut :=
  match strict, stream with
  | false, false => policyDecpB
  | false, true => policyDecpS
  | true, false => policyDecsB
  | true, true => policyDecsS

/-- A whole decode (R119): `DecStep` iterated over the successive answers of the source until `Done`; none if the answers run
out before. -/
def decodeRun (strict stream : Bool) (l : Loop) : List Input → Option (Code × Option Word × BitVec 4)
  | [] => none
  | inp :: rest =>
    match decStep strict stream l inp with
    | .done code value count => some (code, value, count)
    | .goOn l' => decodeRun strict stream l' rest

/-- The loop registers at the start of every operation (R110). -/
def Loop.start : Loop := { acc := 0#64, shift := 0#7, idx := 0#4 }

end Sys2Proof.Machine
end

