-- ==== Sys2Proof/Safety.lean ====
section
/-! DEFINITION. What claims are stated in: the invariants of the unit, the host's duties, and the situations in which an
operation is issued and completes. -/

namespace Sys2Proof.Machine

/-- `STATUS` in the three phases (R12, R21, R170): IDLE with no code, RUN with no code, DONE with one of the codes 1 to 6
and 8. So the reserved bits are 0, `BUSY` and `DONE` are never both 1, and the codes 7 and 9 to 15 never appear. -/
def State.StatusLegal (s : State) : Prop :=
  s.status ∈ [0x00#8, 0x80#8, 0x41#8, 0x42#8, 0x43#8, 0x44#8, 0x45#8, 0x46#8, 0x48#8]

/-- The index at which a step always finishes (R116). -/
def idxCap : Instr → Nat
  | .size => 0
  | .decpB => 10
  | .decpS => 9
  | .decsB => 8
  | .decsS => 8

/-- The loop registers (R18, R19, R24 a and b, R116): `SHIFT = 7 * IDX`, `IDX` within the running command's cap, and
`ACC < 2^SHIFT` while `IDX <= 9`. -/
def State.LoopLegal (s : State) : Prop :=
  s.shift.toNat = 7 * s.idx.toNat ∧ s.idx.toNat ≤ idxCap s.running ∧
    (s.idx.toNat ≤ 9 → s.acc.toNat < 2 ^ s.shift.toNat)

/-- The latches (R20, R66, R110): for SIZE both mode latches are 0. -/
def State.LatchesLegal (s : State) : Prop := s.opk = false → s.strict = false ∧ s.stream = false

/-- `LEN_W` is at least 4 (R4), and `BUF_LEN` and every stored offset fit in it (R14, R40). -/
def State.LengthLegal (s : State) : Prop :=
  4 ≤ s.lenW ∧ s.bufLen < 2 ^ s.lenW ∧ Memory.below (2 ^ s.lenW) s.buf = true

/-- The machine's invariant: legal status, loop registers and latches, `COUNT` at most 11 (R16), memory in canonical form,
lengths of `LEN_W` bits. -/
def State.Inv (s : State) : Prop :=
  s.StatusLegal ∧ s.LoopLegal ∧ s.LatchesLegal ∧ s.count.toNat ≤ 11 ∧ Memory.wf s.buf = true ∧ s.LengthLegal

/-- The first `n` bytes of the buffer. -/
def State.bufBytes (s : State) (n : Nat) : List Byte := (List.range n).map (Memory.read s.buf)

/-- What a running buffer decode has done so far (R17, R24 c): every byte read was a continuation byte, and `ACC` holds the
groups of the bytes read, each at its place, cut to 64 bits. -/
def State.BufferRead (s : State) : Prop :=
  s.busy = true → s.opk = true → s.stream = false →
    s.idx.toNat ≤ s.bufLen ∧
    (∀ k, k < s.idx.toNat → contFlag (Memory.read s.buf k) = true) ∧
    s.acc.toNat = logicalValue (s.bufBytes s.idx.toNat) % 2 ^ 64

/-- The host's next action breaks a duty (R203, R204, R208; U4, U5, U6, U12). -/
def State.breaksDuty (s : State) : Bool :=
  match s.host with
  | .write no _ :: _ => s.busy && (no == 0 || no == 2 || no == 3)
  | .store off _ :: _ => s.hasOffset off && s.holdsBuffer off
  | .attach _ _ :: _ => s.holdsStream
  | .takeStream :: _ => s.holdsStream
  | _ => false

/-- The host's next action names a byte that BUF does not have (R40; log 21). -/
def State.strays (s : State) : Bool :=
  match s.host with
  | .store off _ :: _ => !s.hasOffset off
  | .load off :: _ => !s.hasOffset off
  | _ => false

/-- The unit is in phase IDLE or DONE, and the host's one coming action is the `CMD` write of the command. -/
def State.Issues (s : State) (i : Instr) : Prop :=
  s.busy = false ∧ s.host = [.write 0 (encode i).toNat]

/-- The buffer holds exactly these bytes (R69, line `BUF`). -/
def State.BufferIs (s : State) (d : List Byte) : Prop :=
  s.bufLen = d.length ∧ ∀ k, k < d.length → Memory.read s.buf k = d.getD k 0#8

/-- The buffer begins with these bytes. -/
def State.BufferBegins (s : State) (d : List Byte) : Prop :=
  d.length ≤ s.bufLen ∧ ∀ k, k < d.length → Memory.read s.buf k = d.getD k 0#8

/-- A closed stream that holds exactly these bytes (R69, line `STRM`). -/
def State.StreamIs (s : State) (d : List Byte) : Prop :=
  s.strm = d.map SrcEvent.byte ∧ s.strmAfter = .closed

/-- The unit is in phase DONE with this code and count (R114). -/
def State.Completed (s : State) (code : Code) (count : Nat) : Prop :=
  s.busy = false ∧ s.done = true ∧ s.code = code.bits ∧ s.count.toNat = count

/-- What the source answers to the next fetch of a decode (R111, R42); none where it has not answered yet or never will. -/
def State.nextInput (s : State) : Option Input :=
  if s.stream then
    match s.strm with
    | .byte b :: _ => some (.byte b)
    | .eof :: _ => some .eof
    | .notYet :: _ => none
    | [] => if s.strmAfter = .closed then some .eof else none
  else if s.idx.toNat < s.bufLen then some (.byte (Memory.read s.buf s.idx.toNat))
  else some .eof

/-- The answers among what a source does. -/
def answersOf : List SrcEvent → List Input
  | [] => []
  | .byte b :: q => .byte b :: answersOf q
  | .eof :: q => .eof :: answersOf q
  | .notYet :: q => answersOf q

/-- The state with the stream's next answer taken (R42). -/
def State.streamTaken (s : State) : State := { s with strm := s.strm.tail }

/-- Neither the parameter, an operand register, a byte of the buffer, what the stream does at its end, nor what the host has
read differs. -/
def State.SameOperands (s t : State) : Prop :=
  t.lenW = s.lenW ∧ t.valIn = s.valIn ∧ t.bufLen = s.bufLen ∧ (∀ a, Memory.read t.buf a = Memory.read s.buf a) ∧
    t.buf = s.buf ∧ t.strmAfter = s.strmAfter ∧ t.hostRead = s.hostRead

end Sys2Proof.Machine
end

