-- ==== Sys2Proof/Certificates/Slice0/Obligations.lean ====
section
/-! DEFINITION. The statements for the provers, each from the numbered rules of the spec. A docstring names the rule and
whatever of it is the spec's own decision (D<n> of 92_eei_decisions.md) or the model's (log <n>). -/

open Sys2Proof Sys2Proof.Machine

/-! ### Reset -/

/-- R30 (decision D10): every register right after reset, for every width `LEN_W`, and what the host reads of it; `State.reset`
is the one of the default width 32 (R4; log 1). A buffer without a stored byte and a stream without a listed answer are the
model's start (log 3, 7) and not stated. -/
def Obligations.ResetRegisters : Prop :=
  State.reset = State.resetWith 32 ∧
  ∀ w : Nat,
    let s := State.resetWith w
    s.lenW = w ∧ s.status = 0x00#8 ∧ s.phase = .idle ∧ s.code = Code.none.bits ∧
    s.valIn = 0#64 ∧ s.bufLen = 0 ∧ s.value = 0#64 ∧ s.count = 0#4 ∧
    s.acc = 0#64 ∧ s.shift = 0#7 ∧ s.idx = 0#4 ∧ s.opk = false ∧ s.strict = false ∧ s.stream = false ∧
    ∀ no, s.regRead no = 0

/-- R200, R201 (decisions D10, D23): reset, in any phase, gives every register its value of R30 and leaves the buffer and the
stream as they are; so an abandoned operation delivers no completion, and the bytes it took stay taken. -/
def Obligations.ResetInAnyPhase : Prop :=
  ∀ (s : State) (rest : List HostAct), s.host = .reset :: rest →
    step s = .next
      { s with
        host := rest, status := 0x00#8, valIn := 0#64, bufLen := 0, value := 0#64, count := 0#4
        acc := 0#64, shift := 0#7, idx := 0#4, opk := false, strict := false, stream := false }

/-- The invariant of the machine, and what a running buffer decode has done, hold at reset (R24, R30), for every width that R4
allows, the default among them (log 1). -/
def Obligations.InvariantHoldsAtReset : Prop :=
  (∀ w, 4 ≤ w → (State.resetWith w).Inv ∧ (State.resetWith w).BufferRead) ∧ State.reset.Inv ∧ State.reset.BufferRead

/-! ### Invariants that every step keeps -/

/-- R12, R16, R18, R19, R21, R24, R116, R170: from every state of the invariant, a step that gives a next state gives one of the
invariant: the nine legal values of STATUS, SHIFT = 7 * IDX, IDX within the command's cap, ACC < 2^SHIFT while IDX <= 9, no mode
latch with SIZE, COUNT at most 11, the buffer in canonical form, `BUF_LEN` and every stored offset of `LEN_W` bits; and `LEN_W`
itself, whatever it is, stays (R4, R14). -/
def Obligations.StepKeepsInvariant : Prop :=
  ∀ s t : State, s.Inv → step s = .next t → t.Inv ∧ t.lenW = s.lenW

/-- R17, R24 (c): throughout a buffer decode, and whatever the host does, every byte read so far is a continuation byte and
ACC holds their groups, each at its place. -/
def Obligations.StepKeepsBufferRead : Prop :=
  ∀ s t : State, s.Inv → s.BufferRead → step s = .next t → t.BufferRead

/-! ### Command words -/

/-- R67 (decision D2): the opcode map: five words, matched on all eight bits, and no other word is a command. -/
def Obligations.OpcodeMap : Prop :=
  decodeCmd 0b00000000#8 = .command .size ∧ decodeCmd 0b00000100#8 = .command .decpB ∧
  decodeCmd 0b00000101#8 = .command .decpS ∧ decodeCmd 0b00000110#8 = .command .decsB ∧
  decodeCmd 0b00000111#8 = .command .decsS ∧
  (∀ w i, decodeCmd w = .command i → w ∈ [0x00#8, 0x04#8, 0x05#8, 0x06#8, 0x07#8]) ∧
  ∃ why, decodeCmd 0x08#8 = .illegal why

/-- R66, R67: decoding the word of a command gives the command, and only that word does. -/
def Obligations.DecodeOfEncode : Prop :=
  ∀ (i : Instr) (w : Byte), decodeCmd w = .command i ↔ w = encode i

/-- R68 (decisions D2, D12): an illegal word is illegal for one of three reasons read off its fields. -/
def Obligations.IllegalWordsByField : Prop :=
  ∀ w : Byte,
    (w.extractLsb' 4 4 ≠ 0#4 → decodeCmd w = .illegal .reservedBits) ∧
    (w.extractLsb' 4 4 = 0#4 → w.getLsbD 3 = true → decodeCmd w = .illegal .reservedOpc) ∧
    (w ∈ [0x01#8, 0x02#8, 0x03#8] → decodeCmd w = .illegal .sizeWithMode)

/-- R68, R178 (decision D12): the words R67 does not list are the illegal ones, in three sorts; a `CMD` write of one, in phase
IDLE or DONE, completes in that same transition with ILLEGAL_CMD, count 0 and an undefined value, and changes nothing else; no
source byte is read. -/
def Obligations.IllegalWordCompletesAtOnce : Prop :=
  (∀ w : Byte,
    (w ∉ [0x00#8, 0x04#8, 0x05#8, 0x06#8, 0x07#8] ↔ ∃ why, decodeCmd w = .illegal why) ∧
    (w ∉ [0x00#8, 0x04#8, 0x05#8, 0x06#8, 0x07#8] ↔
      w.extractLsb' 4 4 ≠ 0#4 ∨ w.extractLsb' 2 2 ∈ [0b10#2, 0b11#2] ∨ w ∈ [0x01#8, 0x02#8, 0x03#8])) ∧
  ∀ (s : State) (w : Byte) (rest : List HostAct), s.busy = false → s.host = .write 0 w.toNat :: rest →
    w ∉ [0x00#8, 0x04#8, 0x05#8, 0x06#8, 0x07#8] →
    ∃ st : BitVec 8,
      step s = .next
        { s with
          host := rest, status := st, count := 0#4
          value := Config.anyValue s.draws, draws := s.draws + 1 } ∧
      st.getLsbD 7 = false ∧ st.getLsbD 6 = true ∧ st.extractLsb' 0 4 = 8#4 ∧
      st.extractLsb' 4 2 = s.status.extractLsb' 4 2

/-! ### A step runs the command -/

/-- R11, R115: a `CMD` write of a legal word in phase IDLE or DONE is `exec` of the command it decodes to, with the host's
action taken off its script; in phase RUN the unit's turn is `exec` of the command the latches select. That a turn is the
host's while it has an action and the unit's otherwise, and that one `exec` is the start or one unit step, is the model's choice
(log 4, 10). -/
def Obligations.StepRunsTheCommand : Prop :=
  (∀ (s : State) (w : Byte) (rest : List HostAct) (i : Instr), s.busy = false → s.host = .write 0 w.toNat :: rest →
    decodeCmd w = .command i → step s = exec i { s with host := rest }) ∧
  (∀ s : State, s.busy = true → s.host = [] → step s = exec s.running s) ∧
  (∀ (s : State) (rest : List HostAct), s.busy = true → s.host = .pass :: rest →
    step s = exec s.running { s with host := rest }) ∧
  (∀ (s : State) (rest : List HostAct), s.busy = true → s.done = false → s.host = .wait :: rest →
    step s = exec s.running s)

/-- The word of a command placed where the step takes its next one is run by the very next step, as `exec` of the command
(log 9), and only the host's script and, where the unit was busy, STATUS are touched by the placing. -/
def Obligations.PlacedWordRunsNext : Prop :=
  ∀ (s : State) (i : Instr),
    step (s.withFetchWord 8 (encode i).toNat) =
      exec i { s with status := if s.busy then 0x00#8 else s.status }

/-- R21, R114, R187: in phase IDLE or DONE the unit's turn changes nothing, be it because the host has no action, or passes, or
waits; a wait is over when `DONE = 1` (R69), and in phase IDLE it never is. Only the host's script moves (log 4). -/
def Obligations.IdleUnitDoesNothing : Prop :=
  (∀ s : State, s.busy = false → s.host = [] → step s = .next s) ∧
  (∀ (s : State) (rest : List HostAct), s.busy = false → s.host = .pass :: rest → step s = .next { s with host := rest }) ∧
  (∀ (s : State) (rest : List HostAct), s.busy = false → s.done = false → s.host = .wait :: rest → step s = .next s) ∧
  ∀ (s : State) (rest : List HostAct), s.busy = false → s.done = true → s.host = .wait :: rest →
    step s = .next { s with host := rest }

/-! ### Start and finish -/

/-- R110 (decision D2): the start of an operation by its command word, whole, as the command's `exec` and as the host's write
of the word. -/
def Obligations.StartLatchesAndClears : Prop :=
  ∀ (s : State) (w : Byte) (i : Instr), s.busy = false → decodeCmd w = .command i →
    ∃ st : BitVec 8,
      exec i s = .next
        { s with
          opk := decide (w.extractLsb' 2 2 = 0b01#2), strict := w.getLsbD 1, stream := w.getLsbD 0
          acc := 0#64, shift := 0#7, idx := 0#4, status := st } ∧
      (∀ rest : List HostAct, s.host = .write 0 w.toNat :: rest →
        step s = .next
          { s with
            host := rest
            opk := decide (w.extractLsb' 2 2 = 0b01#2), strict := w.getLsbD 1, stream := w.getLsbD 0
            acc := 0#64, shift := 0#7, idx := 0#4, status := st }) ∧
      st.getLsbD 7 = true ∧ st.getLsbD 6 = false ∧ st.extractLsb' 0 4 = Code.none.bits ∧
      st.extractLsb' 4 2 = s.status.extractLsb' 4 2

/-- R114 (decisions D4, D5): what a finish writes, and that it writes nothing else; no value is a fresh draw of a free value
(R15; log 2). After it the unit does nothing by itself. -/
def Obligations.FinishWritesResults : Prop :=
  ∀ (s : State) (code : Code) (v : Option Word) (n : BitVec 4),
    ∃ st : BitVec 8,
      s.finish code v n =
        { s with
          value := v.getD (Config.anyValue s.draws), count := n, status := st
          draws := if v.isSome then s.draws else s.draws + 1 } ∧
      st.getLsbD 7 = false ∧ st.getLsbD 6 = true ∧ st.extractLsb' 0 4 = code.bits ∧
      st.extractLsb' 4 2 = s.status.extractLsb' 4 2 ∧
      (s.host = [] → step (s.finish code v n) = .next (s.finish code v n))

/-! ### SIZE -/

/-- R91: the function `size`: 1 for 0, else the least number of sevens that covers the bit length; from 1 to 10. -/
def Obligations.SizeOfBitLength : Prop :=
  size 0#64 = 1 ∧
  (∀ (v : Word) (len : Nat), 1 ≤ len → 2 ^ (len - 1) ≤ v.toNat → v.toNat < 2 ^ len →
    len ≤ 7 * size v ∧ ∀ q, len ≤ 7 * q → size v ≤ q) ∧
  ∀ v : Word, 1 ≤ size v ∧ size v ≤ 10

/-- R92 (derived in the spec from R91): the threshold table, every row, and which values fit the strict mode. -/
def Obligations.SizeThresholds : Prop :=
  (∀ (v : Word) (n : Nat), 1 ≤ n → n ≤ 10 →
    (size v = n ↔ (n = 1 ∨ 2 ^ (7 * (n - 1)) ≤ v.toNat) ∧ v.toNat < 2 ^ (7 * n))) ∧
  ∀ v : Word, v.toNat < 2 ^ 63 ↔ size v ≤ 9

/-- R90: SIZE: its word, its start, its one step, what the step writes and leaves, and the corner cases. That VALUE is left undefined is
the spec's decision D6. -/
def Obligations.SizeCommand : Prop :=
  decodeCmd 0x00#8 = .command .size ∧
  (∀ s : State, s.busy = false →
    ∃ st : BitVec 8,
      exec .size s = .next
        { s with
          opk := false, strict := false, stream := false
          acc := 0#64, shift := 0#7, idx := 0#4, status := st } ∧
      st.getLsbD 7 = true ∧ st.getLsbD 6 = false ∧ st.extractLsb' 0 4 = Code.none.bits) ∧
  (∀ s : State, s.busy = true → s.opk = false →
    ∃ st : BitVec 8,
      exec .size s = .next
        { s with
          value := Config.anyValue s.draws, draws := s.draws + 1
          count := BitVec.ofNat 4 (size s.valIn), status := st } ∧
      (BitVec.ofNat 4 (size s.valIn)).toNat = size s.valIn ∧
      st.getLsbD 7 = false ∧ st.getLsbD 6 = true ∧ st.extractLsb' 0 4 = Code.ok.bits) ∧
  size 0#64 = 1 ∧ size (BitVec.ofNat 64 (2 ^ 64 - 1)) = 10 ∧ size (BitVec.ofNat 64 (2 ^ 63 - 1)) = 9 ∧
  size (BitVec.ofNat 64 (2 ^ 63)) = 10 ∧ size 127#64 = 1 ∧ size 128#64 = 2 ∧ size 300#64 = 2

/-- R90, R116: the whole operation SIZE: two steps after the `CMD` write is due, it has completed OK with the size. -/
def Obligations.SizeOperation : Prop :=
  ∀ s : State, s.Issues .size →
    ∃ t, core.run 2 s = .next t ∧ t.Completed .ok (size s.valIn) ∧ s.SameOperands t ∧ t.strm = s.strm

/-! ### One step of a decode -/

/-- R130, R111: the unit step of DECP.B: the byte at IDX if IDX < BUF_LEN, else the end of the buffer. The clause `10 <= IDX`
is the spec's decision D7 (log 17). -/
def Obligations.DecpBStep : Prop :=
  ∀ s : State, s.busy = true → s.running = .decpB →
    exec .decpB s = .next
      (let b := Memory.read s.buf s.idx.toNat
       if s.bufLen ≤ s.idx.toNat then s.finish .truncated none s.idx
       else if 10 ≤ s.idx.toNat then s.finish .overflow none (s.idx + 1#4)
       else if b.getLsbD 7 = false then
         if s.idx.toNat = 9 ∧ 1 < b.toNat then s.finish .overflow none 10#4
         else s.finish .ok (some (s.acc ||| b.setWidth 64 <<< s.shift.toNat)) (s.idx + 1#4)
       else
         { s with
           acc := s.acc ||| (b.extractLsb' 0 7).setWidth 64 <<< s.shift.toNat
           shift := s.shift + 7#7, idx := s.idx + 1#4 })

/-- R131, R42: the unit step of DECP.S on each answer of the stream. That no 11th byte is requested is the spec's decision D8
(log 17). -/
def Obligations.DecpSStep : Prop :=
  ∀ (s : State) (inp : Input), s.busy = true → s.running = .decpS → s.nextInput = some inp →
    exec .decpS s = .next
      (let t := s.streamTaken
       match inp with
       | .eof => if s.idx = 0#4 then t.finish .endOfInput none 0#4 else t.finish .unexpectedEnd none s.idx
       | .byte b =>
         if b.getLsbD 7 = false then
           if 9 ≤ s.idx.toNat ∧ 1 < b.toNat then t.finish .overflow none (s.idx + 1#4)
           else t.finish .ok (some (s.acc ||| b.setWidth 64 <<< s.shift.toNat)) (s.idx + 1#4)
         else if 9 ≤ s.idx.toNat then t.finish .overflow none (s.idx + 1#4)
         else
           { t with
             acc := s.acc ||| (b.extractLsb' 0 7).setWidth 64 <<< s.shift.toNat
             shift := s.shift + 7#7, idx := s.idx + 1#4 })

/-- R150, R111: the unit step of DECS.B. -/
def Obligations.DecsBStep : Prop :=
  ∀ s : State, s.busy = true → s.running = .decsB →
    exec .decsB s = .next
      (let b := Memory.read s.buf s.idx.toNat
       if s.bufLen ≤ s.idx.toNat then s.finish .truncated none s.idx
       else if (s.idx = 8#4 ∧ b.getLsbD 7 = true) ∨ 9 ≤ s.idx.toNat then s.finish .overflow none (s.idx + 1#4)
       else if b.getLsbD 7 = false then
         if b = 0x00#8 ∧ s.shift ≠ 0#7 then s.finish .nonMinimal none (s.idx + 1#4)
         else s.finish .ok (some (s.acc ||| b.setWidth 64 <<< s.shift.toNat)) (s.idx + 1#4)
       else
         { s with
           acc := s.acc ||| (b.extractLsb' 0 7).setWidth 64 <<< s.shift.toNat
           shift := s.shift + 7#7, idx := s.idx + 1#4 })

/-- R151, R42: the unit step of DECS.S on each answer of the stream. -/
def Obligations.DecsSStep : Prop :=
  ∀ (s : State) (inp : Input), s.busy = true → s.running = .decsS → s.nextInput = some inp →
    exec .decsS s = .next
      (let t := s.streamTaken
       match inp with
       | .eof => if s.idx = 0#4 then t.finish .endOfInput none 0#4 else t.finish .unexpectedEnd none s.idx
       | .byte b =>
         if (s.idx = 8#4 ∧ b.getLsbD 7 = true) ∨ 9 ≤ s.idx.toNat then t.finish .overflow none (s.idx + 1#4)
         else if b.getLsbD 7 = false then
           if b = 0x00#8 ∧ s.shift ≠ 0#7 then t.finish .nonMinimal none (s.idx + 1#4)
           else t.finish .ok (some (s.acc ||| b.setWidth 64 <<< s.shift.toNat)) (s.idx + 1#4)
         else
           { t with
             acc := s.acc ||| (b.extractLsb' 0 7).setWidth 64 <<< s.shift.toNat
             shift := s.shift + 7#7, idx := s.idx + 1#4 })

/-- R112: whenever a decode step does not end the operation, the byte it fetched is a continuation byte and the step is the
accumulate; in states of the invariant no group bit is lost, but in DECP.B at index 9, and the step after that one always ends
the operation without a value. -/
def Obligations.ContinuingStepAccumulates : Prop :=
  (∀ (i : Instr) (s t : State) (b : Byte), i ≠ .size → s.busy = true → s.nextInput = some (.byte b) →
    exec i s = .next t → t.busy = true →
    b.getLsbD 7 = true ∧
    t = { s with
          strm := if s.stream then s.strm.tail else s.strm
          acc := s.acc ||| (b.extractLsb' 0 7).setWidth 64 <<< s.shift.toNat
          shift := s.shift + 7#7, idx := s.idx + 1#4 } ∧
    (s.Inv → ¬ (i = .decpB ∧ s.idx = 9#4) → (b.extractLsb' 0 7).toNat * 2 ^ s.shift.toNat < 2 ^ 64)) ∧
  ∀ s : State, s.busy = true → s.running = .decpB → s.idx = 10#4 →
    exec .decpB s = .next (s.finish .truncated none 10#4) ∨ exec .decpB s = .next (s.finish .overflow none 11#4)

/-- R113 (its second half derived in the spec), R133: a decode that completes OK delivers the logical value of the bytes it read,
cut by nothing: a buffer decode in its last step, from states of the invariant; a stream decode over its whole run, on any
stream, closed or not, with bytes left or not, and however long the source took for each answer. -/
def Obligations.OkDeliversLogicalValue : Prop :=
  (∀ (i : Instr) (s t : State), s.Inv → s.BufferRead → s.busy = true → s.opk = true → s.stream = false →
    exec i s = .next t → t.busy = false → t.code = Code.ok.bits →
    t.count.toNat = s.idx.toNat + 1 ∧
    isEncoded (s.bufBytes (s.idx.toNat + 1)) = true ∧
    t.value.toNat = logicalValue (s.bufBytes (s.idx.toNat + 1))) ∧
  ∀ (i : Instr) (s t : State) (k n : Nat), i = .decpS ∨ i = .decsS → s.Issues i → core.run k s = .next t →
    t.host = [] → t.Completed .ok n →
    ∃ (taken : List SrcEvent) (d : List Byte), s.strm = taken ++ t.strm ∧ answersOf taken = d.map Input.byte ∧
      d.length = n ∧ isEncoded d = true ∧ t.value.toNat = logicalValue d

/-! ### Completion kinds -/

/-- R117: a fetch that answers End ends the operation by the source kind, with the number of bytes read; nothing is removed
from a stream of bytes; TRUNCATED is a buffer's kind alone, END_OF_INPUT and UNEXPECTED_END a stream's. -/
def Obligations.EndOfSourceByKind : Prop :=
  (∀ s : State, s.busy = true → s.opk = true → s.stream = false → s.bufLen ≤ s.idx.toNat →
    exec s.running s = .next (s.finish .truncated none s.idx)) ∧
  (∀ s : State, s.busy = true → s.opk = true → s.stream = true → s.nextInput = some .eof → s.idx = 0#4 →
    exec s.running s = .next (s.streamTaken.finish .endOfInput none 0#4)) ∧
  (∀ s : State, s.busy = true → s.opk = true → s.stream = true → s.nextInput = some .eof → s.idx ≠ 0#4 →
    exec s.running s = .next (s.streamTaken.finish .unexpectedEnd none s.idx)) ∧
  (∀ s : State, s.stream = true → s.nextInput = some .eof →
    s.streamTaken.strm.filter (fun e => decide (e ≠ .eof)) = s.strm.filter (fun e => decide (e ≠ .eof))) ∧
  ∀ (i : Instr) (s t : State), s.busy = true → exec i s = .next t → t.busy = false →
    (t.code = Code.truncated.bits → s.opk = true ∧ s.stream = false) ∧
    (t.code = Code.endOfInput.bits ∨ t.code = Code.unexpectedEnd.bits → s.opk = true ∧ s.stream = true)

/-- R172 (its count is the spec's decision D5): TRUNCATED exactly where a buffer decode's fetch finds IDX >= BUF_LEN; then every
byte of the buffer is a continuation byte and COUNT is BUF_LEN, at most 10 in DECP.B and 8 in DECS.B. -/
def Obligations.TruncatedExactlyWhen : Prop :=
  ∀ (i : Instr) (s t : State), s.Inv → s.BufferRead → s.busy = true → exec i s = .next t →
    ((t.busy = false ∧ t.code = Code.truncated.bits) ↔
      (i = .decpB ∨ i = .decsB) ∧ s.bufLen ≤ s.idx.toNat) ∧
    (t.busy = false → t.code = Code.truncated.bits →
      (∀ k, k < s.bufLen → (Memory.read s.buf k).getLsbD 7 = true) ∧
      t.count.toNat = s.bufLen ∧
      (i = .decpB → s.bufLen ≤ 10) ∧ (i = .decsB → s.bufLen ≤ 8))

/-- R173 (the count of DECP.B at the 11th byte is decision D7, the cap of DECP.S decision D8): OVERFLOW exactly in the listed
cases, with their counts. -/
def Obligations.OverflowExactlyWhen : Prop :=
  ∀ (i : Instr) (s t : State), s.Inv → s.busy = true → exec i s = .next t →
    ((t.busy = false ∧ t.code = Code.overflow.bits) ↔
      ∃ b, s.nextInput = some (.byte b) ∧
        (((i = .decsB ∨ i = .decsS) ∧ s.idx = 8#4 ∧ b.getLsbD 7 = true) ∨
         ((i = .decpB ∨ i = .decpS) ∧ s.idx = 9#4 ∧ b.getLsbD 7 = false ∧ 1 < b.toNat) ∨
         (i = .decpB ∧ s.idx = 10#4) ∨
         (i = .decpS ∧ s.idx = 9#4 ∧ b.getLsbD 7 = true))) ∧
    (t.busy = false → t.code = Code.overflow.bits →
      t.count.toNat = s.idx.toNat + 1 ∧ (i = .decsB ∨ i = .decsS → t.count = 9#4) ∧
      (i = .decpS → t.count = 10#4) ∧ (i = .decpB → t.count = 10#4 ∨ t.count = 11#4))

/-- R174: NON_MINIMAL exactly where a strict decode fetches the byte 0x00 with SHIFT > 0 (equivalently IDX >= 1), at an index
from 1 to 8; never in permissive mode. -/
def Obligations.NonMinimalExactlyWhen : Prop :=
  ∀ (i : Instr) (s t : State), s.Inv → s.busy = true → exec i s = .next t →
    ((t.busy = false ∧ t.code = Code.nonMinimal.bits) ↔
      (i = .decsB ∨ i = .decsS) ∧ s.nextInput = some (.byte 0x00#8) ∧ 0 < s.shift.toNat) ∧
    (0 < s.shift.toNat ↔ 1 ≤ s.idx.toNat) ∧
    (t.busy = false → t.code = Code.nonMinimal.bits →
      1 ≤ s.idx.toNat ∧ s.idx.toNat ≤ 8 ∧ t.count.toNat = s.idx.toNat + 1)

/-- R130, R131, R150, R151, R170: which codes, with which counts, each command can complete with. The counts of the failing
kinds are the spec's decision D5. -/
def Obligations.CompletionsOfEachCommand : Prop :=
  ∀ (i : Instr) (s t : State), s.Inv → s.busy = true → exec i s = .next t → t.busy = false →
    t.done = true ∧
    match i with
    | .size => t.code = Code.ok.bits ∧ 1 ≤ t.count.toNat ∧ t.count.toNat ≤ 10
    | .decpB =>
      (t.code = Code.ok.bits ∧ 1 ≤ t.count.toNat ∧ t.count.toNat ≤ 10) ∨
      (t.code = Code.overflow.bits ∧ (t.count = 10#4 ∨ t.count = 11#4)) ∨
      (t.code = Code.truncated.bits ∧ t.count.toNat ≤ 10)
    | .decpS =>
      (t.code = Code.ok.bits ∧ 1 ≤ t.count.toNat ∧ t.count.toNat ≤ 10) ∨
      (t.code = Code.overflow.bits ∧ t.count = 10#4) ∨
      (t.code = Code.endOfInput.bits ∧ t.count = 0#4) ∨
      (t.code = Code.unexpectedEnd.bits ∧ 1 ≤ t.count.toNat ∧ t.count.toNat ≤ 9)
    | .decsB =>
      (t.code = Code.ok.bits ∧ 1 ≤ t.count.toNat ∧ t.count.toNat ≤ 9) ∨
      (t.code = Code.overflow.bits ∧ t.count = 9#4) ∨
      (t.code = Code.nonMinimal.bits ∧ 2 ≤ t.count.toNat ∧ t.count.toNat ≤ 9) ∨
      (t.code = Code.truncated.bits ∧ t.count.toNat ≤ 8)
    | .decsS =>
      (t.code = Code.ok.bits ∧ 1 ≤ t.count.toNat ∧ t.count.toNat ≤ 9) ∨
      (t.code = Code.overflow.bits ∧ t.count = 9#4) ∨
      (t.code = Code.nonMinimal.bits ∧ 2 ≤ t.count.toNat ∧ t.count.toNat ≤ 9) ∨
      (t.code = Code.endOfInput.bits ∧ t.count = 0#4) ∨
      (t.code = Code.unexpectedEnd.bits ∧ 1 ≤ t.count.toNat ∧ t.count.toNat ≤ 8)

/-- R134 (the identification of the sentinel's insufficient data with TRUNCATED is decision D21): every completion of DECP.B has
a sentinel length, positive exactly for OK, zero exactly for TRUNCATED, negative exactly for OVERFLOW. -/
def Obligations.SentinelOfDecpB : Prop :=
  (∀ n : Nat, consumedLength .ok n = some (n : Int) ∧ consumedLength .truncated n = some 0 ∧
    consumedLength .overflow n = some (-(n : Int))) ∧
  ∀ s t : State, s.Inv → s.busy = true → exec .decpB s = .next t → t.busy = false →
    ∃ (code : Code) (len : Int), t.code = code.bits ∧ consumedLength code t.count.toNat = some len ∧
      (0 < len ↔ code = .ok) ∧ (len = 0 ↔ code = .truncated) ∧ (len < 0 ↔ code = .overflow)

/-! ### Frames -/

/-- R13, R14, R26, R45: no command, at its start or in any step, changes an operand register, a byte of the buffer, what the
host has read or is going to do, or what the stream does at its end. -/
def Obligations.CommandsLeaveOperands : Prop :=
  ∀ (i : Instr) (s t : State), exec i s = .next t → s.SameOperands t ∧ t.host = s.host

/-- R40, R42, R45: SIZE and the buffer commands leave the stream alone; a stream command takes nothing at its start, and at most
the one next answer in a step. -/
def Obligations.StreamTakenOneByOne : Prop :=
  ∀ (i : Instr) (s t : State), exec i s = .next t →
    (i = .size ∨ i = .decpB ∨ i = .decsB → t.strm = s.strm) ∧
    (s.busy = false → t.strm = s.strm) ∧
    (t.strm = s.strm ∨ ∃ e, s.strm = e :: t.strm)

/-- R15, R16, R20, R112, R114: a step in phase RUN keeps the latches; where it does not end the operation it keeps the result
registers and STATUS too, and where it does it keeps ACC, SHIFT and IDX. SIZE keeps ACC, SHIFT and IDX. -/
def Obligations.RunStepFrame : Prop :=
  ∀ (i : Instr) (s t : State), s.busy = true → exec i s = .next t →
    t.opk = s.opk ∧ t.strict = s.strict ∧ t.stream = s.stream ∧
    (t.busy = true → t.value = s.value ∧ t.count = s.count ∧ t.status = s.status ∧ t.draws = s.draws) ∧
    (t.busy = false ∨ i = .size → t.acc = s.acc ∧ t.shift = s.shift ∧ t.idx = s.idx)

/-- R15, R16: whatever the host does, VALUE and COUNT change only in a step that ends in phase DONE with a completion, or by
reset. -/
def Obligations.ResultsKeptUntilCompletion : Prop :=
  ∀ s t : State, step s = .next t → (t.value ≠ s.value ∨ t.count ≠ s.count) →
    (t.busy = false ∧ t.done = true ∧ (s.busy = true ∨ ∃ v rest, s.host = .write 0 v :: rest)) ∨
    ∃ rest, s.host = .reset :: rest

/-- R12, R182: a completion stays readable: DONE and CODE keep their values until a `CMD` write or reset. -/
def Obligations.DoneKeptUntilCommandOrReset : Prop :=
  ∀ s t : State, s.Inv → s.done = true → step s = .next t →
    (t.done = true ∧ t.code = s.code ∧ t.value = s.value ∧ t.count = s.count) ∨
    (∃ v rest, s.host = .write 0 v :: rest) ∨ ∃ rest, s.host = .reset :: rest

/-! ### Host accesses and duties -/

/-- R27 (decision D3): a read has no side effect, and gives 0 for CMD and for numbers 6 and above; a write of a read-only register
or of a number 6 and above changes nothing; a write of VAL_IN or BUF_LEN with a value of the register's width, in phase IDLE or
DONE, takes effect at once and starts nothing. -/
def Obligations.RegisterAccess : Prop :=
  (∀ (s : State) (no : Nat) (rest : List HostAct), s.host = .read no :: rest →
    ∃ x : Nat, step s = .next { s with host := rest, hostRead := x } ∧ (no = 0 ∨ 6 ≤ no → x = 0)) ∧
  (∀ (s : State) (no v : Nat) (rest : List HostAct), s.host = .write no v :: rest →
    no = 1 ∨ no = 4 ∨ no = 5 ∨ 6 ≤ no → step s = .next { s with host := rest }) ∧
  (∀ (s : State) (v : Word) (rest : List HostAct), s.host = .write 2 v.toNat :: rest → s.busy = false →
    step s = .next { s with host := rest, valIn := v }) ∧
  ∀ (s : State) (n : Nat) (rest : List HostAct), s.host = .write 3 n :: rest → n < 2 ^ s.lenW → s.busy = false →
    step s = .next { s with host := rest, bufLen := n }

/-- R12 to R16, R40: what the host's reads return: the number each readable register holds, with the reserved bits of STATUS 0,
and the byte at an offset of the buffer; nothing but the value read changes. That a host word is 0 above a narrower register is
the model's reading (log 20), that a byte can be loaded at any time its own (log 21). -/
def Obligations.HostReads : Prop :=
  (∀ (s : State) (no : Nat) (rest : List HostAct), s.host = .read no :: rest →
    ∃ x : Nat, step s = .next { s with host := rest, hostRead := x } ∧
      (no = 1 → ∃ st : BitVec 8, x = st.toNat ∧ st.getLsbD 7 = s.busy ∧ st.getLsbD 6 = s.done ∧
        st.extractLsb' 4 2 = 0#2 ∧ st.extractLsb' 0 4 = s.code) ∧
      (no = 2 → x = s.valIn.toNat) ∧ (no = 3 → x = s.bufLen) ∧ (no = 4 → x = s.value.toNat) ∧
      (no = 5 → x = s.count.toNat)) ∧
  ∀ (s : State) (off : Nat) (rest : List HostAct), s.host = .load off :: rest →
    (off < 2 ^ s.lenW → step s = .next { s with host := rest, hostRead := (Memory.read s.buf off).toNat }) ∧
    (2 ^ s.lenW ≤ off → step s = .fault .noSuchOffset)

/-- R203 (decision D11; U4, U5): while BUSY = 1 a write of CMD, VAL_IN or BUF_LEN is refused; a read of any register is allowed,
and in states of the invariant STATUS then reads BUSY = 1, DONE = 0, CODE = 0 and VALUE and COUNT read what they held, each in the
bits of its own width. -/
def Obligations.NoRegisterWriteWhileBusy : Prop :=
  (∀ (s : State) (v : Nat) (rest : List HostAct), s.busy = true →
    (s.host = .write 0 v :: rest → step s = .refused .cmdWhileBusy) ∧
    (s.host = .write 2 v :: rest → step s = .refused .operandWhileBusy) ∧
    (s.host = .write 3 v :: rest → step s = .refused .operandWhileBusy)) ∧
  ∀ (s : State) (no : Nat) (rest : List HostAct), s.busy = true → s.host = .read no :: rest →
    ∃ t, step s = .next t ∧ t.busy = true ∧
      (s.Inv → no = 1 → t.hostRead % 2 ^ 8 = 0x80) ∧ (no = 4 → t.hostRead = s.value.toNat) ∧
      (no = 5 → t.hostRead % 2 ^ 4 = s.count.toNat)

/-- R40, R48, R204 (U6): during a buffer operation a store to one of the first min(BUF_LEN, 11) bytes is refused; any other store
at an offset of the buffer, and any at any other time, lands: the byte reads back, every other offset reads as before, and nothing
else changes. An offset that `LEN_W` bits do not hold is none of the buffer (log 21). -/
def Obligations.BufferStores : Prop :=
  ∀ (s : State) (off : Nat) (b : Byte) (rest : List HostAct), s.host = .store off b :: rest →
    if 2 ^ s.lenW ≤ off then step s = .fault .noSuchOffset
    else if s.busy = true ∧ s.opk = true ∧ s.stream = false ∧ off < min s.bufLen 11 then
      step s = .refused .bufferWhileBusy
    else
      ∃ m, step s = .next { s with host := rest, buf := m } ∧ Memory.read m off = b ∧
        ∀ a, a ≠ off → Memory.read m a = Memory.read s.buf a

/-- R203, R204, R208 (U4, U5, U6, U12; log 8): a step is refused exactly where the host's next action breaks a duty, ends in a
fault exactly where that action names a byte the buffer does not have (R40; log 21), and else answers a next state: every failure
of the unit is a completion (R180). -/
def Obligations.RefusedExactlyOnBrokenDuty : Prop :=
  ∀ s : State,
    ((∃ r, step s = .refused r) ↔ s.breaksDuty = true) ∧
    ((∃ f, step s = .fault f) ↔ s.strays = true) ∧
    (s.breaksDuty = false → s.strays = false → ∃ t, step s = .next t)

/-! ### Progress, blocking, termination -/

/-- R206: a stream operation whose source has not answered takes no step and stays BUSY; a source that never answers leaves it so
for ever; SIZE and the buffer operations never block: each of their steps ends the operation or reads the next byte. -/
def Obligations.StreamBlocksAndBuffersNever : Prop :=
  (∀ s : State, s.busy = true → s.opk = true → s.stream = true → s.nextInput = none →
    exec s.running s = .next s.streamTaken) ∧
  (∀ (s : State) (k : Nat), s.busy = true → s.opk = true → s.stream = true → s.host = [] → s.strm = [] →
    s.strmAfter = .silent → core.run k s = .next s) ∧
  ∀ s t : State, s.Inv → s.busy = true → s.opk = false ∨ s.stream = false → exec s.running s = .next t →
    (t.busy = false ∧ t.done = true) ∨ (s.opk = true ∧ t.busy = true ∧ t.idx.toNat = s.idx.toNat + 1)

/-- R22, R47, R116: a step in phase RUN ends the operation, or reads the byte of index IDX and moves IDX on by exactly 1, or, on a
stream that has not answered, changes nothing of the unit. -/
def Obligations.RunStepEndsOrAdvances : Prop :=
  ∀ (i : Instr) (s t : State), s.Inv → s.busy = true → exec i s = .next t →
    (t.busy = false ∧ t.done = true) ∨
    (t.idx.toNat = s.idx.toNat + 1 ∧ t.shift.toNat = s.shift.toNat + 7 ∧
      ∃ b, s.nextInput = some (.byte b) ∧ b.getLsbD 7 = true) ∨
    (s.stream = true ∧ s.nextInput = none ∧ t = s.streamTaken)

/-- R116 (derived in the spec): left alone, a running operation ends within its cap plus one less IDX steps, on a buffer always
and on a closed stream of bytes always. -/
def Obligations.OperationTerminates : Prop :=
  ∀ (s : State) (d : List Byte), s.Inv → s.busy = true → s.host = [] → (s.stream = true → s.StreamIs d) →
    ∃ (k : Nat) (t : State), k ≤ idxCap s.running + 1 - s.idx.toNat ∧ core.run k s = .next t ∧
      t.busy = false ∧ t.done = true

/-! ### What an operation reads -/

/-- R14, R41, R52 (the bounds derived in the spec; R14's width decision D14): a step of a buffer command depends on BUF_LEN only
up to its cap plus one, and on the buffer only through its first that many bytes; and the width of BUF_LEN does not matter. -/
def Obligations.UnreadBytesDoNotMatter : Prop :=
  ∀ (i : Instr) (s t : State) (m : Memory) (n w : Nat), s.Inv → i = .decpB ∨ i = .decsB → s.busy = true →
    (∀ k, k < min s.bufLen (idxCap i + 1) → Memory.read m k = Memory.read s.buf k) →
    min n (idxCap i + 1) = min s.bufLen (idxCap i + 1) →
    exec i s = .next t →
    exec i { s with buf := m, bufLen := n, lenW := w } = .next { t with buf := m, bufLen := n, lenW := w }

/-- R6, R25: the completion of an operation is a function of the command word and of its own operands and source alone: two
states that agree on them, whatever else they hold, run the same course, step by step, and complete with the same code and count,
and the same value where it is defined. -/
def Obligations.CompletionDependsOnOwnOperands : Prop :=
  ∀ (i : Instr) (s s' : State) (k : Nat), s.Issues i → s'.Issues i →
    (i = .size → s.valIn = s'.valIn) →
    (i = .decpB ∨ i = .decsB → s.bufLen = s'.bufLen ∧ s.buf = s'.buf) →
    (i = .decpS ∨ i = .decsS → s.strm = s'.strm ∧ s.strmAfter = s'.strmAfter) →
    ∃ t t', core.run (k + 1) s = .next t ∧ core.run (k + 1) s' = .next t' ∧
      t.busy = t'.busy ∧ t.done = t'.done ∧ t.code = t'.code ∧ t.idx = t'.idx ∧
      (t.done = true → t.count = t'.count) ∧
      (t.done = true → i ≠ .size → t.code = Code.ok.bits → t.value = t'.value) ∧
      (i = .decpS ∨ i = .decsS → t.strm = t'.strm)

/-- R119 (derived in the spec), R5: a whole decode of the machine is the iteration of the pure step over the successive answers of
the source, however long the source takes for each. -/
def Obligations.MachineIteratesDecStep : Prop :=
  ∀ (s : State) (i : Instr) (answers : List Input) (code : Code) (v : Option Word) (n : BitVec 4),
    i ≠ .size → s.Issues i →
    (i = .decpB ∨ i = .decsB →
      answers = (s.bufBytes s.bufLen).map Input.byte ++ [.eof]) →
    (i = .decpS ∨ i = .decsS →
      answers = answersOf s.strm ++ (if s.strmAfter = .closed then [.eof] else [])) →
    decodeRun (i = .decsB ∨ i = .decsS) (i = .decpS ∨ i = .decsS) Loop.start answers = some (code, v, n) →
    ∃ (k : Nat) (t : State), core.run k s = .next t ∧ t.host = [] ∧ t.Completed code n.toNat ∧ (∀ x, v = some x → t.value = x)

/-! ### Whole operations -/

/-- R150, R155 (the table derived in the spec): DECS.B on a buffer of exactly these bytes: the five rows. -/
def Obligations.StrictBufferTable : Prop :=
  ∀ (s : State) (d : List Byte), s.Issues .decsB → s.BufferIs d →
    ∃ (k : Nat) (t : State), k ≤ 10 ∧ core.run k s = .next t ∧ t.host = [] ∧ s.SameOperands t ∧ t.strm = s.strm ∧
      match firstTerminal (d.take 9) with
      | some j =>
        if j = 0 ∨ d.getD j 0#8 ≠ 0#8 then
          t.Completed .ok (j + 1) ∧ t.value.toNat = logicalValue (d.take (j + 1))
        else t.Completed .nonMinimal (j + 1)
      | none => if 9 ≤ d.length then t.Completed .overflow 9 else t.Completed .truncated d.length

/-- R151, R155, R185 (the table derived in the spec): DECS.S on a closed stream of exactly these bytes: the five rows, and what is
left of the stream: everything after the COUNT bytes taken. -/
def Obligations.StrictStreamTable : Prop :=
  ∀ (s : State) (d : List Byte), s.Issues .decsS → s.StreamIs d →
    ∃ (k : Nat) (t : State), k ≤ 10 ∧ core.run k s = .next t ∧ t.host = [] ∧ s.SameOperands t ∧ t.StreamIs (d.drop t.count.toNat) ∧
      match firstTerminal (d.take 9) with
      | some j =>
        if j = 0 ∨ d.getD j 0#8 ≠ 0#8 then
          t.Completed .ok (j + 1) ∧ t.value.toNat = logicalValue (d.take (j + 1))
        else t.Completed .nonMinimal (j + 1)
      | none =>
        if 9 ≤ d.length then t.Completed .overflow 9
        else if d.length = 0 then t.Completed .endOfInput 0
        else t.Completed .unexpectedEnd d.length

/-- R130, R133, R135 (the table derived in the spec; its rows for ten and more continuation bytes rest on decision D7): DECP.B on
a buffer of exactly these bytes. -/
def Obligations.PermissiveBufferTable : Prop :=
  ∀ (s : State) (d : List Byte), s.Issues .decpB → s.BufferIs d →
    ∃ (k : Nat) (t : State), k ≤ 12 ∧ core.run k s = .next t ∧ t.host = [] ∧ s.SameOperands t ∧ t.strm = s.strm ∧
      match firstTerminal (d.take 10) with
      | some j =>
        if j < 9 ∨ (d.getD j 0#8).toNat ≤ 1 then
          t.Completed .ok (j + 1) ∧ t.value.toNat = logicalValue (d.take (j + 1))
        else t.Completed .overflow 10
      | none => if 11 ≤ d.length then t.Completed .overflow 11 else t.Completed .truncated d.length

/-- R131, R133, R135, R185 (the table derived in the spec; its rows for ten and more continuation bytes rest on decision D8):
DECP.S on a closed stream of exactly these bytes, and what is left of the stream. -/
def Obligations.PermissiveStreamTable : Prop :=
  ∀ (s : State) (d : List Byte), s.Issues .decpS → s.StreamIs d →
    ∃ (k : Nat) (t : State), k ≤ 11 ∧ core.run k s = .next t ∧ t.host = [] ∧ s.SameOperands t ∧ t.StreamIs (d.drop t.count.toNat) ∧
      match firstTerminal (d.take 10) with
      | some j =>
        if j < 9 ∨ (d.getD j 0#8).toNat ≤ 1 then
          t.Completed .ok (j + 1) ∧ t.value.toNat = logicalValue (d.take (j + 1))
        else t.Completed .overflow 10
      | none =>
        if 10 ≤ d.length then t.Completed .overflow 10
        else if d.length = 0 then t.Completed .endOfInput 0
        else t.Completed .unexpectedEnd d.length

/-- R103 (a), R153 (d): DECS.B on a buffer that begins with `Enc(v)`, and DECS.S on a stream that begins with it, give `v` back with
count `size(v)`, for every `v` below `2^63`, in `size(v)` steps after the start; the stream keeps all that follows. -/
def Obligations.StrictRecoversEncoded : Prop :=
  (∀ (s : State) (v : Word), s.Issues .decsB → s.BufferBegins (enc v) → v.toNat < 2 ^ 63 →
    ∃ t, core.run (1 + size v) s = .next t ∧ t.Completed .ok (size v) ∧ t.value = v ∧ s.SameOperands t) ∧
  ∀ (s : State) (v : Word) (more : List SrcEvent), s.Issues .decsS →
    s.strm = (enc v).map SrcEvent.byte ++ more → v.toNat < 2 ^ 63 →
    ∃ t, core.run (1 + size v) s = .next t ∧ t.Completed .ok (size v) ∧ t.value = v ∧ t.strm = more

/-- R103 (b), R94 (b): DECP.B and DECP.S give back every 64-bit `v` from `Enc(v)`, with count `size(v)`. -/
def Obligations.PermissiveRecoversEncoded : Prop :=
  (∀ (s : State) (v : Word), s.Issues .decpB → s.BufferBegins (enc v) →
    ∃ t, core.run (1 + size v) s = .next t ∧ t.Completed .ok (size v) ∧ t.value = v ∧ s.SameOperands t) ∧
  ∀ (s : State) (v : Word) (more : List SrcEvent), s.Issues .decpS →
    s.strm = (enc v).map SrcEvent.byte ++ more →
    ∃ t, core.run (1 + size v) s = .next t ∧ t.Completed .ok (size v) ∧ t.value = v ∧ t.strm = more

/-- R103 (d) (derived in the spec), R154 (b): the canonical encodings of `2^63` and above overflow the strict mode at the byte of
index 8. -/
def Obligations.StrictRefusesWideValues : Prop :=
  (∀ (s : State) (v : Word), s.Issues .decsB → s.BufferBegins (enc v) → 2 ^ 63 ≤ v.toNat →
    ∃ t, core.run 10 s = .next t ∧ t.Completed .overflow 9 ∧ s.SameOperands t) ∧
  ∀ (s : State) (v : Word) (more : List SrcEvent), s.Issues .decsS →
    s.strm = (enc v).map SrcEvent.byte ++ more → 2 ^ 63 ≤ v.toNat →
    ∃ t, core.run 10 s = .next t ∧ t.Completed .overflow 9 ∧
      t.strm = ((enc v).drop 9).map SrcEvent.byte ++ more

/-- R153 (derived in the spec): what a strict OK guarantees, in DECS.B (in its last step, from states of the invariant) and in
DECS.S (over its whole run, on any stream): a value below `2^63`, a count that is its size, and bytes read that are exactly its
canonical encoding. -/
def Obligations.StrictOkIsCanonical : Prop :=
  (∀ s t : State, s.Inv → s.BufferRead → s.busy = true → exec .decsB s = .next t →
    t.busy = false → t.code = Code.ok.bits →
    t.value.toNat < 2 ^ 63 ∧ t.count.toNat = size t.value ∧ s.bufBytes t.count.toNat = enc t.value) ∧
  ∀ (s t : State) (k n : Nat), s.Issues .decsS → core.run k s = .next t → t.host = [] → t.Completed .ok n →
    t.value.toNat < 2 ^ 63 ∧ n = size t.value ∧
    ∃ taken : List SrcEvent, s.strm = taken ++ t.strm ∧ answersOf taken = (enc t.value).map Input.byte

/-- R154 (a) (derived in the spec): where the strict mode completes OK, the permissive mode of the same source kind, on the same
source, completes OK with the same value and count. -/
def Obligations.StrictOkImpliesPermissiveOk : Prop :=
  ∀ (answers : List Input) (stream : Bool) (v : Option Word) (n : BitVec 4),
    decodeRun true stream Loop.start answers = some (.ok, v, n) →
    decodeRun false stream Loop.start answers = some (.ok, v, n)

/-! ### The reference functions -/

/-- R104: the five encoding vectors of the source, in wire order, and their logical values. -/
def Obligations.EncodingVectors : Prop :=
  enc 1#64 = [0x01#8] ∧ enc 127#64 = [0x7f#8] ∧ enc 128#64 = [0x80#8, 0x01#8] ∧ enc 255#64 = [0xff#8, 0x01#8] ∧
  enc 256#64 = [0x80#8, 0x02#8] ∧
  logicalValue [0x01#8] = 1 ∧ logicalValue [0x7f#8] = 127 ∧ logicalValue [0x80#8, 0x01#8] = 128 ∧
  logicalValue [0xff#8, 0x01#8] = 255 ∧ logicalValue [0x80#8, 0x02#8] = 256

/-- R100 (the loop form derived in the spec): `Enc` in its closed form is the loop a serial encoder runs. -/
def Obligations.EncLoopForm : Prop :=
  ∀ v : Word,
    (v.toNat < 0x80 → enc v = [v.setWidth 8]) ∧
    (0x80 ≤ v.toNat → enc v = (0x80#8 ||| (v.extractLsb' 0 7).setWidth 8) :: enc (v >>> 7))

/-- R102 (the converse derived in the spec), R94 (a): `Enc(v)` has `size(v)` bytes, is canonical and has the logical value `v`;
and every canonical encoded value of at most 10 bytes whose logical value is below `2^64` is `Enc` of it. -/
def Obligations.EncIsTheCanonicalEncoding : Prop :=
  (∀ v : Word, (enc v).length = size v ∧ isCanonical (enc v) = true ∧ logicalValue (enc v) = v.toNat) ∧
  ∀ d : List Byte, isCanonical d = true → d.length ≤ 10 → logicalValue d < 2 ^ 64 →
    d = enc (BitVec.ofNat 64 (logicalValue d))

/-- R101, R177: the buffer form of the encoder: with room, the bytes of `Enc(v)` from offset 0 and no other byte; without, the kind
BufferTooSmall, every byte of the buffer a free value (U2; log 14), and no byte outside it touched. -/
def Obligations.EncodeIntoBuffer : Prop :=
  ∀ (m : Memory) (len : Nat) (v : Word) (draws : Nat),
    let r := encodeInto m len v draws
    (size v ≤ len → r.1 = .written (size v) ∧ r.2.2 = draws ∧
      (∀ k, k < size v → Memory.read r.2.1 k = (enc v).getD k 0#8) ∧
      ∀ k, size v ≤ k → Memory.read r.2.1 k = Memory.read m k) ∧
    (len < size v → r.1 = .bufferTooSmall ∧ r.2.2 = draws + len ∧
      (∀ k, k < len → Memory.read r.2.1 k = Config.anyByte (draws + k)) ∧
      ∀ k, len ≤ k → Memory.read r.2.1 k = Memory.read m k)

/-- R65, R132: the padded form of a value is an encoded value of the asked length and the same logical value, and not canonical;
the permissive mode accepts it up to 10 bytes, the strict mode refuses it: NON_MINIMAL up to 9 bytes, OVERFLOW above; each on a
buffer and on a stream that begin with it. -/
def Obligations.PaddedEncodings : Prop :=
  ∀ (v : Word) (n : Nat), size v < n →
    isEncoded (padded v n) = true ∧ isCanonical (padded v n) = false ∧ (padded v n).length = n ∧
    logicalValue (padded v n) = v.toNat ∧
    (∀ s : State, s.Issues .decpB → s.BufferBegins (padded v n) → n ≤ 10 →
      ∃ (k : Nat) (t : State), core.run k s = .next t ∧ t.host = [] ∧ t.Completed .ok n ∧ t.value = v) ∧
    (∀ (s : State) (more : List SrcEvent), s.Issues .decpS → s.strm = (padded v n).map SrcEvent.byte ++ more → n ≤ 10 →
      ∃ (k : Nat) (t : State), core.run k s = .next t ∧ t.host = [] ∧ t.Completed .ok n ∧ t.value = v ∧ t.strm = more) ∧
    (∀ s : State, s.Issues .decsB → s.BufferBegins (padded v n) →
      ∃ (k : Nat) (t : State), core.run k s = .next t ∧ t.host = [] ∧
        if n ≤ 9 then t.Completed .nonMinimal n else t.Completed .overflow 9) ∧
    ∀ (s : State) (more : List SrcEvent), s.Issues .decsS → s.strm = (padded v n).map SrcEvent.byte ++ more →
      ∃ (k : Nat) (t : State), core.run k s = .next t ∧ t.host = [] ∧
        t.strm = ((padded v n).drop 9).map SrcEvent.byte ++ more ∧
        if n ≤ 9 then t.Completed .nonMinimal n else t.Completed .overflow 9
end

