-- ==== Sys2Proof/Laws/State.lean ====
section
/-! SUPPORT. One lemma per field per named update of the state, so that no proof unfolds a record update. -/

namespace Sys2Proof.Machine

@[simp] theorem resetWith_lenW (w : Nat) : (State.resetWith w).lenW = w := rfl
@[simp] theorem resetWith_status (w : Nat) : (State.resetWith w).status = 0x00#8 := rfl
@[simp] theorem resetWith_valIn (w : Nat) : (State.resetWith w).valIn = 0#64 := rfl
@[simp] theorem resetWith_bufLen (w : Nat) : (State.resetWith w).bufLen = 0 := rfl
@[simp] theorem resetWith_value (w : Nat) : (State.resetWith w).value = 0#64 := rfl
@[simp] theorem resetWith_count (w : Nat) : (State.resetWith w).count = 0#4 := rfl
@[simp] theorem resetWith_acc (w : Nat) : (State.resetWith w).acc = 0#64 := rfl
@[simp] theorem resetWith_shift (w : Nat) : (State.resetWith w).shift = 0#7 := rfl
@[simp] theorem resetWith_idx (w : Nat) : (State.resetWith w).idx = 0#4 := rfl
@[simp] theorem resetWith_opk (w : Nat) : (State.resetWith w).opk = false := rfl
@[simp] theorem resetWith_strict (w : Nat) : (State.resetWith w).strict = false := rfl
@[simp] theorem resetWith_stream (w : Nat) : (State.resetWith w).stream = false := rfl
@[simp] theorem resetWith_buf (w : Nat) : (State.resetWith w).buf = [] := rfl
@[simp] theorem resetWith_strm (w : Nat) : (State.resetWith w).strm = [] := rfl
@[simp] theorem resetWith_strmAfter (w : Nat) : (State.resetWith w).strmAfter = .silent := rfl
@[simp] theorem resetWith_host (w : Nat) : (State.resetWith w).host = [] := rfl
@[simp] theorem resetWith_hostRead (w : Nat) : (State.resetWith w).hostRead = 0 := rfl
@[simp] theorem resetWith_draws (w : Nat) : (State.resetWith w).draws = 0 := rfl

section
variable (s : State)

@[simp] theorem start_status (w : Byte) : (s.start w).status = statusWith true false 0#4 s.status := rfl
@[simp] theorem start_lenW (w : Byte) : (s.start w).lenW = s.lenW := rfl
@[simp] theorem start_valIn (w : Byte) : (s.start w).valIn = s.valIn := rfl
@[simp] theorem start_bufLen (w : Byte) : (s.start w).bufLen = s.bufLen := rfl
@[simp] theorem start_value (w : Byte) : (s.start w).value = s.value := rfl
@[simp] theorem start_count (w : Byte) : (s.start w).count = s.count := rfl
@[simp] theorem start_acc (w : Byte) : (s.start w).acc = 0#64 := rfl
@[simp] theorem start_shift (w : Byte) : (s.start w).shift = 0#7 := rfl
@[simp] theorem start_idx (w : Byte) : (s.start w).idx = 0#4 := rfl
@[simp] theorem start_opk (w : Byte) : (s.start w).opk = (w.extractLsb' 2 2 == 0b01#2) := rfl
@[simp] theorem start_strict (w : Byte) : (s.start w).strict = w.getLsbD 1 := rfl
@[simp] theorem start_stream (w : Byte) : (s.start w).stream = w.getLsbD 0 := rfl
@[simp] theorem start_buf (w : Byte) : (s.start w).buf = s.buf := rfl
@[simp] theorem start_strm (w : Byte) : (s.start w).strm = s.strm := rfl
@[simp] theorem start_strmAfter (w : Byte) : (s.start w).strmAfter = s.strmAfter := rfl
@[simp] theorem start_host (w : Byte) : (s.start w).host = s.host := rfl
@[simp] theorem start_hostRead (w : Byte) : (s.start w).hostRead = s.hostRead := rfl
@[simp] theorem start_draws (w : Byte) : (s.start w).draws = s.draws := rfl

@[simp] theorem finish_status (c : Code) (v : Option Word) (n : BitVec 4) :
    (s.finish c v n).status = statusWith false true c.bits s.status := by cases v <;> rfl
@[simp] theorem finish_lenW (c : Code) (v : Option Word) (n : BitVec 4) :
    (s.finish c v n).lenW = s.lenW := by cases v <;> rfl
@[simp] theorem finish_valIn (c : Code) (v : Option Word) (n : BitVec 4) :
    (s.finish c v n).valIn = s.valIn := by cases v <;> rfl
@[simp] theorem finish_bufLen (c : Code) (v : Option Word) (n : BitVec 4) :
    (s.finish c v n).bufLen = s.bufLen := by cases v <;> rfl
@[simp] theorem finish_count (c : Code) (v : Option Word) (n : BitVec 4) :
    (s.finish c v n).count = n := by cases v <;> rfl
@[simp] theorem finish_acc (c : Code) (v : Option Word) (n : BitVec 4) :
    (s.finish c v n).acc = s.acc := by cases v <;> rfl
@[simp] theorem finish_shift (c : Code) (v : Option Word) (n : BitVec 4) :
    (s.finish c v n).shift = s.shift := by cases v <;> rfl
@[simp] theorem finish_idx (c : Code) (v : Option Word) (n : BitVec 4) :
    (s.finish c v n).idx = s.idx := by cases v <;> rfl
@[simp] theorem finish_opk (c : Code) (v : Option Word) (n : BitVec 4) :
    (s.finish c v n).opk = s.opk := by cases v <;> rfl
@[simp] theorem finish_strict (c : Code) (v : Option Word) (n : BitVec 4) :
    (s.finish c v n).strict = s.strict := by cases v <;> rfl
@[simp] theorem finish_stream (c : Code) (v : Option Word) (n : BitVec 4) :
    (s.finish c v n).stream = s.stream := by cases v <;> rfl
@[simp] theorem finish_buf (c : Code) (v : Option Word) (n : BitVec 4) :
    (s.finish c v n).buf = s.buf := by cases v <;> rfl
@[simp] theorem finish_strm (c : Code) (v : Option Word) (n : BitVec 4) :
    (s.finish c v n).strm = s.strm := by cases v <;> rfl
@[simp] theorem finish_strmAfter (c : Code) (v : Option Word) (n : BitVec 4) :
    (s.finish c v n).strmAfter = s.strmAfter := by cases v <;> rfl
@[simp] theorem finish_host (c : Code) (v : Option Word) (n : BitVec 4) :
    (s.finish c v n).host = s.host := by cases v <;> rfl
@[simp] theorem finish_hostRead (c : Code) (v : Option Word) (n : BitVec 4) :
    (s.finish c v n).hostRead = s.hostRead := by cases v <;> rfl
@[simp] theorem finish_some_value (c : Code) (v : Word) (n : BitVec 4) : (s.finish c (some v) n).value = v := rfl
@[simp] theorem finish_some_draws (c : Code) (v : Word) (n : BitVec 4) : (s.finish c (some v) n).draws = s.draws := rfl
@[simp] theorem finish_none_value (c : Code) (n : BitVec 4) :
    (s.finish c none n).value = Config.anyValue s.draws := rfl
@[simp] theorem finish_none_draws (c : Code) (n : BitVec 4) : (s.finish c none n).draws = s.draws + 1 := rfl

@[simp] theorem applyReset_status : s.applyReset.status = 0x00#8 := rfl
@[simp] theorem applyReset_lenW : s.applyReset.lenW = s.lenW := rfl
@[simp] theorem applyReset_valIn : s.applyReset.valIn = 0#64 := rfl
@[simp] theorem applyReset_bufLen : s.applyReset.bufLen = 0 := rfl
@[simp] theorem applyReset_value : s.applyReset.value = 0#64 := rfl
@[simp] theorem applyReset_count : s.applyReset.count = 0#4 := rfl
@[simp] theorem applyReset_acc : s.applyReset.acc = 0#64 := rfl
@[simp] theorem applyReset_shift : s.applyReset.shift = 0#7 := rfl
@[simp] theorem applyReset_idx : s.applyReset.idx = 0#4 := rfl
@[simp] theorem applyReset_opk : s.applyReset.opk = false := rfl
@[simp] theorem applyReset_strict : s.applyReset.strict = false := rfl
@[simp] theorem applyReset_stream : s.applyReset.stream = false := rfl
@[simp] theorem applyReset_buf : s.applyReset.buf = s.buf := rfl
@[simp] theorem applyReset_strm : s.applyReset.strm = s.strm := rfl
@[simp] theorem applyReset_strmAfter : s.applyReset.strmAfter = s.strmAfter := rfl
@[simp] theorem applyReset_host : s.applyReset.host = s.host := rfl
@[simp] theorem applyReset_hostRead : s.applyReset.hostRead = s.hostRead := rfl
@[simp] theorem applyReset_draws : s.applyReset.draws = s.draws := rfl

@[simp] theorem apply_goOn_status (l : Loop) : (s.apply (.goOn l)).status = s.status := rfl
@[simp] theorem apply_goOn_lenW (l : Loop) : (s.apply (.goOn l)).lenW = s.lenW := rfl
@[simp] theorem apply_goOn_valIn (l : Loop) : (s.apply (.goOn l)).valIn = s.valIn := rfl
@[simp] theorem apply_goOn_bufLen (l : Loop) : (s.apply (.goOn l)).bufLen = s.bufLen := rfl
@[simp] theorem apply_goOn_value (l : Loop) : (s.apply (.goOn l)).value = s.value := rfl
@[simp] theorem apply_goOn_count (l : Loop) : (s.apply (.goOn l)).count = s.count := rfl
@[simp] theorem apply_goOn_acc (l : Loop) : (s.apply (.goOn l)).acc = l.acc := rfl
@[simp] theorem apply_goOn_shift (l : Loop) : (s.apply (.goOn l)).shift = l.shift := rfl
@[simp] theorem apply_goOn_idx (l : Loop) : (s.apply (.goOn l)).idx = l.idx := rfl
@[simp] theorem apply_goOn_opk (l : Loop) : (s.apply (.goOn l)).opk = s.opk := rfl
@[simp] theorem apply_goOn_strict (l : Loop) : (s.apply (.goOn l)).strict = s.strict := rfl
@[simp] theorem apply_goOn_stream (l : Loop) : (s.apply (.goOn l)).stream = s.stream := rfl
@[simp] theorem apply_goOn_buf (l : Loop) : (s.apply (.goOn l)).buf = s.buf := rfl
@[simp] theorem apply_goOn_strm (l : Loop) : (s.apply (.goOn l)).strm = s.strm := rfl
@[simp] theorem apply_goOn_strmAfter (l : Loop) : (s.apply (.goOn l)).strmAfter = s.strmAfter := rfl
@[simp] theorem apply_goOn_host (l : Loop) : (s.apply (.goOn l)).host = s.host := rfl
@[simp] theorem apply_goOn_hostRead (l : Loop) : (s.apply (.goOn l)).hostRead = s.hostRead := rfl
@[simp] theorem apply_goOn_draws (l : Loop) : (s.apply (.goOn l)).draws = s.draws := rfl
@[simp] theorem apply_done (c : Code) (v : Option Word) (n : BitVec 4) : s.apply (.done c v n) = s.finish c v n := rfl

@[simp] theorem placeCommand_host (w : Byte) : (s.placeCommand w).host = .write 0 w.toNat :: s.host := rfl
@[simp] theorem placeCommand_status (w : Byte) :
    (s.placeCommand w).status = if s.busy then 0x00#8 else s.status := rfl

end

end Sys2Proof.Machine
end

