-- ==== Sys2Proof/Laws/Status.lean ====
section
/-! SUPPORT. The fields of `STATUS` after a write of them (R12), and the phase after each named operation. -/

namespace Sys2Proof.Machine

/-- The fields of a status put together from its parts, on every value of each part. -/
theorem status_parts : ∀ (b d : Bool) (r : BitVec 2) (c : BitVec 4),
    ((BitVec.ofBool b ++ BitVec.ofBool d ++ r ++ c : BitVec 8).getLsbD 7 = b ∧
     (BitVec.ofBool b ++ BitVec.ofBool d ++ r ++ c : BitVec 8).getLsbD 6 = d) ∧
    (BitVec.ofBool b ++ BitVec.ofBool d ++ r ++ c : BitVec 8).extractLsb' 0 4 = c ∧
    (BitVec.ofBool b ++ BitVec.ofBool d ++ r ++ c : BitVec 8).extractLsb' 4 2 = r := by
  decide

theorem statusWith_busy (b d : Bool) (c : BitVec 4) (old : BitVec 8) : (statusWith b d c old).getLsbD 7 = b :=
  (status_parts b d _ c).1.1

theorem statusWith_done (b d : Bool) (c : BitVec 4) (old : BitVec 8) : (statusWith b d c old).getLsbD 6 = d :=
  (status_parts b d _ c).1.2

theorem statusWith_code (b d : Bool) (c : BitVec 4) (old : BitVec 8) :
    (statusWith b d c old).extractLsb' 0 4 = c :=
  (status_parts b d _ c).2.1

/-- The reserved bits keep what they held (R12). -/
theorem statusWith_reserved (b d : Bool) (c : BitVec 4) (old : BitVec 8) :
    (statusWith b d c old).extractLsb' 4 2 = old.extractLsb' 4 2 :=
  (status_parts b d _ c).2.2

/-- A status whose reserved bits are 0 keeps nothing of the old one but its new fields. -/
theorem statusWith_of_reserved (b d : Bool) (c : BitVec 4) {old : BitVec 8} (h : old.extractLsb' 4 2 = 0#2) :
    statusWith b d c old = BitVec.ofBool b ++ BitVec.ofBool d ++ 0#2 ++ c := by
  simp [statusWith, h]

section
variable (s : State)

@[simp] theorem start_busy (w : Byte) : (s.start w).busy = true := statusWith_busy ..
@[simp] theorem start_done (w : Byte) : (s.start w).done = false := statusWith_done ..
@[simp] theorem start_code (w : Byte) : (s.start w).code = 0#4 := statusWith_code ..
@[simp] theorem finish_busy (c : Code) (v : Option Word) (n : BitVec 4) : (s.finish c v n).busy = false := by
  rw [State.busy, finish_status, statusWith_busy]
@[simp] theorem finish_done (c : Code) (v : Option Word) (n : BitVec 4) : (s.finish c v n).done = true := by
  rw [State.done, finish_status, statusWith_done]
@[simp] theorem finish_code (c : Code) (v : Option Word) (n : BitVec 4) : (s.finish c v n).code = c.bits := by
  rw [State.code, finish_status, statusWith_code]
@[simp] theorem applyReset_busy : s.applyReset.busy = false := by
  rw [State.busy, applyReset_status]; rfl
@[simp] theorem applyReset_done : s.applyReset.done = false := by
  rw [State.done, applyReset_status]; rfl
@[simp] theorem applyReset_code : s.applyReset.code = 0#4 := by
  rw [State.code, applyReset_status]; rfl
@[simp] theorem placeCommand_busy (w : Byte) : (s.placeCommand w).busy = false := by
  rw [State.busy, placeCommand_status]
  split
  · rfl
  · next h => simpa [State.busy] using h

end

end Sys2Proof.Machine
end

