-- ==== Sys2Proof/Laws/Exec.lean ====
section
/-! SUPPORT. What each shared operation can do, once: a fetch, a decode step, a command, a host action, a step. -/

namespace Sys2Proof.Machine

/-- `t` differs from `s` at most in the stream's answers still to come. -/
def OnlyStream (s t : State) : Prop := ∃ q, t = { s with strm := q }

theorem OnlyStream.refl (s : State) : OnlyStream s s := ⟨s.strm, rfl⟩

/-- What a request to the stream can do (R42). -/
theorem streamNext_cases (s : State) :
    (∃ b rest, s.strm = .byte b :: rest ∧ streamNext s = .answered (.byte b) { s with strm := rest }) ∨
    (∃ rest, s.strm = .eof :: rest ∧ streamNext s = .answered .eof { s with strm := rest }) ∨
    (∃ rest, s.strm = .notYet :: rest ∧ streamNext s = .blocked { s with strm := rest }) ∨
    (s.strm = [] ∧ s.strmAfter = .closed ∧ streamNext s = .answered .eof s) ∨
    (s.strm = [] ∧ s.strmAfter = .silent ∧ streamNext s = .blocked s) := by
  unfold streamNext
  split
  · next b rest h => exact .inl ⟨b, rest, h, rfl⟩
  · next rest h => exact .inr (.inl ⟨rest, h, rfl⟩)
  · next rest h => exact .inr (.inr (.inl ⟨rest, h, rfl⟩))
  · next h =>
    cases ha : s.strmAfter with
    | closed => exact .inr (.inr (.inr (.inl ⟨h, rfl, by simp⟩)))
    | silent => exact .inr (.inr (.inr (.inr ⟨h, rfl, by simp⟩)))

/-- A fetch changes at most the stream (R111). -/
theorem srcNext_cases (s : State) :
    ∃ t, OnlyStream s t ∧ (srcNext s = .blocked t ∨ ∃ inp, srcNext s = .answered inp t) := by
  unfold srcNext
  split
  · rcases streamNext_cases s with ⟨b, r, -, h⟩ | ⟨r, -, h⟩ | ⟨r, -, h⟩ | ⟨-, -, h⟩ | ⟨-, -, h⟩
    · exact ⟨_, ⟨r, rfl⟩, .inr ⟨_, h⟩⟩
    · exact ⟨_, ⟨r, rfl⟩, .inr ⟨_, h⟩⟩
    · exact ⟨_, ⟨r, rfl⟩, .inl h⟩
    · exact ⟨_, OnlyStream.refl s, .inr ⟨_, h⟩⟩
    · exact ⟨_, OnlyStream.refl s, .inl h⟩
  · exact ⟨s, OnlyStream.refl s, .inr ⟨_, rfl⟩⟩

/-- What a decode step can do (R115): nothing, where the source has not answered, or the policy's outcome on one answer. -/
theorem decodeStep_cases (policy : Loop → Input → StepOut) (s : State) :
    ∃ t, OnlyStream s t ∧
      (decodeStep policy s = t ∨ ∃ inp, decodeStep policy s = t.apply (policy s.loop inp)) := by
  obtain ⟨t, ⟨q, rfl⟩, h | ⟨inp, h⟩⟩ := srcNext_cases s
  · exact ⟨_, ⟨q, rfl⟩, .inl (by simp [decodeStep, h])⟩
  · exact ⟨_, ⟨q, rfl⟩, .inr ⟨inp, by simp [decodeStep, h]⟩⟩

/-- A buffer operation's step is the policy's outcome on the buffer's answer (R111). -/
theorem decodeStep_buffer (policy : Loop → Input → StepOut) {s : State} (h : s.stream = false) :
    decodeStep policy s = s.apply (policy s.loop (bufferNext s)) := by
  simp [decodeStep, srcNext, h]

/-- The latches of each command (R110, R115). -/
@[simp] theorem start_running (i : Instr) (s : State) : (s.start (encode i)).running = i := by
  cases i <;> rfl

/-- What a command answers (R110, R115, R203). -/
theorem operate_next {i : Instr} {f : State → State} {s t : State} (h : operate i f s = .next t) :
    (s.busy = false ∧ t = s.start (encode i)) ∨ (s.busy = true ∧ s.running = i ∧ t = f s) := by
  unfold operate at h
  split at h
  · next hb =>
    split at h
    · next hr => exact .inr ⟨hb, hr, by simpa using h.symm⟩
    · cases h
  · next hb => exact .inl ⟨by simpa using hb, by simpa using h.symm⟩

/-- The unit step of a command (R90, R115). -/
def unitStep (i : Instr) : State → State :=
  match i with
  | .size => sizeStep
  | .decpB => decodeStep policyDecpB
  | .decpS => decodeStep policyDecpS
  | .decsB => decodeStep policyDecsB
  | .decsS => decodeStep policyDecsS

theorem exec_eq (i : Instr) (s : State) : exec i s = operate i (unitStep i) s := by cases i <;> rfl

/-- What `exec` answers, when it answers a next state. -/
theorem exec_next {i : Instr} {s t : State} (h : exec i s = .next t) :
    (s.busy = false ∧ t = s.start (encode i)) ∨ (s.busy = true ∧ s.running = i ∧ t = unitStep i s) :=
  operate_next (exec_eq i s ▸ h)

/-- What the unit's turn does: nothing outside RUN, the running command's unit step in RUN (R115, R187). -/
theorem unitTurn_eq (s : State) : unitTurn s = .next (if s.busy then unitStep s.running s else s) := by
  unfold unitTurn
  split
  · next hb => simp [exec_eq, operate, hb]
  · rfl

/-- The state after the unit's turn. -/
def afterTurn (s : State) : State := if s.busy then unitStep s.running s else s

/-- What one action of the host can do, when the step answers a next state: one constructor for each way. -/
inductive HostEffect (s : State) (rest : List HostAct) : HostAct → State → Prop where
  | pass : HostEffect s rest .pass (afterTurn { s with host := rest })
  | waitOver (hd : s.done = true) : HostEffect s rest .wait { s with host := rest }
  | waiting (hd : s.done = false) : HostEffect s rest .wait (afterTurn s)
  | command (v : Nat) (i : Instr) (hb : s.busy = false) (hi : decodeCmd (BitVec.ofNat 8 v) = .command i) :
      HostEffect s rest (.write 0 v) ({ s with host := rest }.start (encode i))
  | illegal (v : Nat) (why : CmdReject) (hb : s.busy = false) (hw : decodeCmd (BitVec.ofNat 8 v) = .illegal why) :
      HostEffect s rest (.write 0 v) { s with host := rest }.illegalCommand
  | writeValIn (v : Nat) (hb : s.busy = false) :
      HostEffect s rest (.write 2 v) { s with host := rest, valIn := BitVec.ofNat 64 v }
  | writeBufLen (v : Nat) (hb : s.busy = false) :
      HostEffect s rest (.write 3 v) { s with host := rest, bufLen := v % 2 ^ s.lenW }
  | ignored (no v : Nat) (h0 : no ≠ 0) (h2 : no ≠ 2) (h3 : no ≠ 3) :
      HostEffect s rest (.write no v) { s with host := rest }
  | read (no : Nat) : HostEffect s rest (.read no) { s with host := rest, hostRead := s.regRead no }
  | store (off : Nat) (b : Byte) (ho : s.hasOffset off = true) (hh : s.holdsBuffer off = false) :
      HostEffect s rest (.store off b) { s with host := rest, buf := Memory.write s.buf off b }
  | load (off : Nat) (ho : s.hasOffset off = true) :
      HostEffect s rest (.load off) { s with host := rest, hostRead := (Memory.read s.buf off).toNat }
  | attach (q : List SrcEvent) (after : SrcAfter) (hh : s.holdsStream = false) :
      HostEffect s rest (.attach q after) { s with host := rest, strm := q, strmAfter := after }
  | takeStream (hh : s.holdsStream = false) : HostEffect s rest .takeStream (takeNext { s with host := rest })
  | reset : HostEffect s rest .reset { s with host := rest }.applyReset

/-- What a register write that answers a next state can have done (R27). -/
theorem regWrite_effect {s t : State} {rest : List HostAct} {no v : Nat}
    (h : regWrite no v { s with host := rest } = .next t) : HostEffect s rest (.write no v) t := by
  unfold regWrite at h
  split at h
  · unfold cmdWrite at h
    split at h
    · cases h
    · next hb =>
      have hb' : s.busy = false := Bool.eq_false_iff.mpr hb
      split at h
      · next i hi =>
        rcases exec_next h with ⟨-, rfl⟩ | ⟨hb2, -, -⟩
        · exact .command v i hb' hi
        · exact absurd hb2 hb
      · next why hw => cases h; exact .illegal v why hb' hw
  · split at h
    · cases h
    · next hb => cases h; exact .writeValIn v (Bool.eq_false_iff.mpr hb)
  · split at h
    · cases h
    · next hb => cases h; exact .writeBufLen v (Bool.eq_false_iff.mpr hb)
  · next h0 h2 h3 => cases h; exact .ignored no v h0 h2 h3

/-- A wait that answers a next state is over, or has given the unit its turn (R69). -/
theorem wait_effect {s t : State} {rest : List HostAct} (hs : s.host = .wait :: rest)
    (h : hostTurn .wait { s with host := rest } = .next t) : HostEffect s rest .wait t := by
  simp only [hostTurn] at h
  split at h
  · next hd => cases h; exact .waitOver hd
  · next hd =>
    have e : ({ s with host := .wait :: rest } : State) = s := by cases s; simp_all
    have h' : unitTurn s = .next t := by rw [← e]; exact h
    rw [unitTurn_eq] at h'
    cases h'
    exact .waiting (Bool.eq_false_iff.mpr hd)

/-- Everything a step that answers a next state can have done. -/
theorem step_cases {s t : State} (h : step s = .next t) :
    (s.host = [] ∧ t = afterTurn s) ∨ ∃ a rest, s.host = a :: rest ∧ HostEffect s rest a t := by
  unfold step turn at h
  cases hs : s.host with
  | nil =>
    rw [hs] at h
    simp only [unitTurn_eq, Host.Outcome.next.injEq] at h
    exact .inl ⟨rfl, h.symm⟩
  | cons a rest =>
    rw [hs] at h
    refine .inr ⟨a, rest, rfl, ?_⟩
    cases a with
    | write no v => exact regWrite_effect h
    | wait => exact wait_effect hs h
    | pass => simp only [hostTurn, unitTurn_eq] at h; cases h; exact .pass
    | read no => cases h; exact .read no
    | reset => cases h; exact .reset
    | store off b =>
      simp only [hostTurn] at h
      split at h
      · cases h
      · next ho =>
        split at h
        · cases h
        · next hb =>
          cases h
          exact .store off b (by simpa [State.hasOffset] using ho) (Bool.eq_false_iff.mpr hb)
    | load off =>
      simp only [hostTurn] at h
      split at h
      · cases h
      · next ho => cases h; exact .load off (by simpa [State.hasOffset] using ho)
    | attach q after =>
      simp only [hostTurn] at h
      split at h
      · cases h
      · next hb => cases h; exact .attach q after (Bool.eq_false_iff.mpr hb)
    | takeStream =>
      simp only [hostTurn] at h
      split at h
      · cases h
      · next hb => cases h; exact .takeStream (Bool.eq_false_iff.mpr hb)

/-- Another agent's taking changes at most the stream's answers still to come (R42, R208). -/
theorem takeNext_only (s : State) : OnlyStream s (takeNext s) := by
  unfold takeNext
  rcases streamNext_cases s with ⟨b, r, -, h⟩ | ⟨r, -, h⟩ | ⟨r, -, h⟩ | ⟨-, -, h⟩ | ⟨-, -, h⟩ <;> rw [h]
  · exact ⟨r, rfl⟩
  · exact ⟨r, rfl⟩
  · exact ⟨r, rfl⟩
  · exact OnlyStream.refl s
  · exact OnlyStream.refl s

end Sys2Proof.Machine
end

