-- ==== Sys2Proof/Laws/PerInstr.lean ====
section
/-! SUPPORT. Statements per command about its syntax: the word of a command has legal fields (R66, R67). -/

namespace Sys2Proof.Laws.LegalWord

/-- The word the encoder gives a command has bits 7:4 clear, a defined `OPC`, no mode bit with SIZE, and the fields R67 lists
for the command. -/
def Statement (i : Instr) : Prop := (fieldsOf (encode i)).wf = true ∧ fieldsOf (encode i) = fieldsFor i

theorem size : Statement .size := ⟨by decide, by decide⟩
theorem decpB : Statement .decpB := ⟨by decide, by decide⟩
theorem decpS : Statement .decpS := ⟨by decide, by decide⟩
theorem decsB : Statement .decsB := ⟨by decide, by decide⟩
theorem decsS : Statement .decsS := ⟨by decide, by decide⟩

end Sys2Proof.Laws.LegalWord
end

