-- ==== Sys2Proof/Tests/Slice0.lean ====
section
/-! SUPPORT. Small tests of the model against the spec's own words and vectors (95_test_vectors.md), and for every statement
with hypotheses a state and operands that meet them, at the values where its clauses meet. -/

namespace Sys2Proof.Tests

open Sys2Proof Sys2Proof.Machine

/-! ### Helpers -/

/-- The next state, if the outcome is one. -/
def nextOf (o : Host.Outcome State Fault Refusal) : Option State :=
  match o with
  | .next t => some t
  | .fault _ => none
  | .refused _ => none

/-- The refusal, if the outcome is one. -/
def refusalOf (o : Host.Outcome State Fault Refusal) : Option Refusal :=
  match o with
  | .next _ => none
  | .fault _ => none
  | .refused r => some r

/-- `STATUS`, `VALUE`, `COUNT` of the next state. -/
def resultOf (o : Host.Outcome State Fault Refusal) : Option (BitVec 8 × Word × BitVec 4) :=
  (nextOf o).map fun t => (t.status, t.value, t.count)

/-- `STATUS` and `COUNT` of the next state, where `VALUE` is `any`. -/
def endOf (o : Host.Outcome State Fault Refusal) : Option (BitVec 8 × BitVec 4) :=
  (nextOf o).map fun t => (t.status, t.count)

/-- A unit in phase RUN with this command, after the bytes `seen`: the loop registers as R17 to R19 say they are then. -/
def runningAfter (i : Instr) (seen : List Byte) : State :=
  { State.reset.start (encode i) with
    acc := BitVec.ofNat 64 (logicalValue seen)
    shift := BitVec.ofNat 7 (7 * seen.length), idx := BitVec.ofNat 4 seen.length }

/-- A buffer decode after the bytes `seen` of a buffer that holds `seen ++ coming`. -/
def onBuffer (i : Instr) (seen coming : List Byte) : State :=
  { runningAfter i seen with
    buf := Memory.writeAll [] 0 (seen ++ coming), bufLen := (seen ++ coming).length }

/-- A stream decode after the bytes `seen` of a stream with these answers to come. -/
def onStream (i : Instr) (seen : List Byte) (coming : List SrcEvent) (after : SrcAfter) : State :=
  { runningAfter i seen with strm := coming, strmAfter := after }

/-- A SIZE in phase RUN. -/
def sizing (v : Word) : State := { State.reset.start (encode .size) with valIn := v }

/-- A unit in phase DONE whose host is about to write the command, with a buffer and a closed stream of these bytes. -/
def issuing (i : Instr) (d q : List Byte) : State :=
  { State.reset with
    status := 0x41#8, value := 5#64, count := 1#4, valIn := 300#64
    buf := Memory.writeAll [] 0 d, bufLen := d.length
    strm := q.map SrcEvent.byte, strmAfter := .closed
    host := [.write 0 (encode i).toNat] }

/-- Bytes of continuation, all `0xff`. -/
def ffs (n : Nat) : List Byte := List.replicate n 0xff#8

/-! ### WellFormed: for each check a term it refuses -/

theorem test_wf_refuses_reserved_bits :
    let f : CmdFields := { z := 1#4, opc := 1#2, strict := false, stream := false }
    f.zClear = false ∧ f.opcDefined = true ∧ f.sizePlain = true ∧ f.wf = false := by decide

theorem test_wf_refuses_reserved_opc :
    let f : CmdFields := { z := 0#4, opc := 2#2, strict := false, stream := false }
    f.zClear = true ∧ f.opcDefined = false ∧ f.sizePlain = true ∧ f.wf = false := by decide

theorem test_wf_refuses_size_with_mode :
    let f : CmdFields := { z := 0#4, opc := 0#2, strict := true, stream := false }
    f.zClear = true ∧ f.opcDefined = true ∧ f.sizePlain = false ∧ f.wf = false := by decide

theorem test_wf_accepts_every_command : ∀ i : Instr, i.wf = true ∧ (fieldsFor i).wf = true := by
  intro i; cases i <;> decide

/-! ### Decoding: words written out from R66 and R67, `Z` `OPC` `STRICT` `STREAM` -/

theorem test_decode_size : decodeCmd 0b0000_00_0_0#8 = .command .size := by decide
theorem test_decode_decpB : decodeCmd 0b0000_01_0_0#8 = .command .decpB := by decide
theorem test_decode_decpS : decodeCmd 0b0000_01_0_1#8 = .command .decpS := by decide
theorem test_decode_decsB : decodeCmd 0b0000_01_1_0#8 = .command .decsB := by decide
theorem test_decode_decsS : decodeCmd 0b0000_01_1_1#8 = .command .decsS := by decide

theorem test_decode_reserved_bits : decodeCmd 0b0001_01_0_0#8 = .illegal .reservedBits := by decide
theorem test_decode_reserved_opc : decodeCmd 0b0000_10_0_0#8 = .illegal .reservedOpc := by decide
theorem test_decode_size_with_mode : decodeCmd 0b0000_00_1_1#8 = .illegal .sizeWithMode := by decide

/-- R68: five words decode to an operation, 251 to illegal. -/
theorem test_five_legal_words :
    ((List.range 256).filter fun n => (decodeTableWord 8 n).isSome) = [0, 4, 5, 6, 7] := by decide

theorem test_table_words :
    decodeTableWord 8 4 = some .decpB ∧ decodeTableWord 8 1 = none ∧ decodeTableWord 16 4 = none := by decide

/-! ### One step of each command -/

/-- R90, R110: SIZE starts, busy and with no code. -/
theorem test_size_start : (nextOf (exec .size State.reset)).map (fun t => (t.status, t.opk)) = some (0x80#8, false) := by decide

/-- Z22: the size of `2^63` is 10; R114: STATUS 0x41. -/
theorem test_size_step : endOf (exec .size (sizing 0x8000000000000000#64)) = some (0x41#8, 10#4) := by decide

/-- P9: the tenth byte 1 completes `2^64 - 1`. -/
theorem test_decpB_largest :
    resultOf (exec .decpB (onBuffer .decpB (ffs 9) [0x01#8])) = some (0x41#8, 0xffffffffffffffff#64, 10#4) := by decide

/-- P14: an 11th byte overflows whatever it is. -/
theorem test_decpB_eleventh_byte :
    endOf (exec .decpB (onBuffer .decpB (ffs 10) [0x00#8])) = some (0x43#8, 11#4) := by decide

/-- Q3: the second byte completes 300 and the next value's byte stays. -/
theorem test_decpS_second_byte :
    (nextOf (exec .decpS (onStream .decpS [0xac#8] [.byte 0x02#8, .byte 0x05#8] .closed))).map
      (fun t => (t.status, t.value, t.count, t.strm)) = some (0x41#8, 300#64, 2#4, [.byte 0x05#8]) := by decide

/-- Q9: a continuation byte of index 9 overflows with count 10. -/
theorem test_decpS_tenth_byte :
    endOf (exec .decpS (onStream .decpS (ffs 9) [.byte 0xff#8] .closed)) = some (0x43#8, 10#4) := by decide

/-- S4: the zero terminal byte after another byte is not minimal. -/
theorem test_decsB_non_minimal :
    endOf (exec .decsB (onBuffer .decsB [0x81#8] [0x00#8])) = some (0x44#8, 2#4) := by decide

/-- S9: the largest strict value. -/
theorem test_decsB_largest :
    resultOf (exec .decsB (onBuffer .decsB (ffs 8) [0x7f#8])) = some (0x41#8, 0x7fffffffffffffff#64, 9#4) := by decide

/-- T1: an empty closed stream. -/
theorem test_decsS_end_of_input :
    endOf (exec .decsS (onStream .decsS [] [] .closed)) = some (0x45#8, 0#4) := by decide

/-- T5: a continuation byte of index 8 overflows, and the tenth byte stays. -/
theorem test_decsS_overflow :
    (nextOf (exec .decsS (onStream .decsS (ffs 8) [.byte 0x80#8, .byte 0x01#8] .closed))).map
      (fun t => (t.status, t.count, t.strm)) = some (0x43#8, 9#4, [.byte 0x01#8]) := by decide

/-! ### The host's side -/

/-- R12, R27: `STATUS` read with its reserved bits 0, and 0 from `CMD` and from a number that does not exist. -/
theorem test_register_reads :
    ({ State.reset with status := 0xf1#8 } : State).regRead 1 = 0xc1 ∧ State.reset.regRead 0 = 0 ∧
      State.reset.regRead 6 = 0 := by decide

/-- R40: the host loads back the byte it stored. -/
theorem test_host_load :
    (nextOf (step { onBuffer .decpB [] [0xac#8, 2#8] with host := [.load 1] })).map (·.hostRead) = some 2 := by decide

/-- R40: with `LEN_W` of 4 bits the buffer has 16 offsets. -/
theorem test_width_of_four_bits :
    (nextOf (step { State.resetWith 4 with host := [.store 15 7#8] })).map (·.buf) = some [(15, 7#8)] ∧
      nextOf (step { State.resetWith 4 with host := [.store 16 7#8] }) = none := by decide

/-- The word placed where the step takes its next one runs as the first command after reset. -/
theorem test_first_step_after_reset :
    (nextOf (step (State.reset.withFetchWord 8 0x07))).map (fun t => (t.status, t.opk, t.strict, t.stream, t.host)) =
      some (0x80#8, true, true, true, []) := by decide

/-- R68: an illegal word completes at once, `ILLEGAL_CMD`, count 0. -/
theorem test_illegal_word : endOf (step (State.reset.withFetchWord 8 0x0c)) = some (0x48#8, 0#4) := by decide

/-- R203: a `CMD` write while busy is refused. -/
theorem test_cmd_write_while_busy :
    refusalOf (step { sizing 1#64 with host := [.write 0 0] }) = some .cmdWhileBusy := by decide

/-- R64, and vector N3: 300 encodes to `ac 02`; a failed encode of 128 into 1 byte (R101). -/
theorem test_reference_encoder :
    enc 300#64 = [0xac#8, 0x02#8] ∧ (encodeInto [] 1 128#64 0).1 = .bufferTooSmall ∧
      (encodeInto [] 2 128#64 0).1 = .written 2 := by decide

/-! ### Witnesses: states and operands that meet the hypotheses of each statement -/

/-- The invariant, as a check. -/
def invCheck (s : State) : Bool :=
  decide (s.status ∈ [0x00#8, 0x80#8, 0x41#8, 0x42#8, 0x43#8, 0x44#8, 0x45#8, 0x46#8, 0x48#8]) &&
  (decide (s.shift.toNat = 7 * s.idx.toNat) && decide (s.idx.toNat ≤ idxCap s.running) &&
    (!decide (s.idx.toNat ≤ 9) || decide (s.acc.toNat < 2 ^ s.shift.toNat))) &&
  (s.opk || (!s.strict && !s.stream)) && decide (s.count.toNat ≤ 11) && Memory.wf s.buf &&
  (decide (4 ≤ s.lenW) && decide (s.bufLen < 2 ^ s.lenW) && Memory.below (2 ^ s.lenW) s.buf)

theorem inv_of_check {s : State} (h : invCheck s = true) : s.Inv := by
  simp only [invCheck, Bool.and_eq_true, Bool.or_eq_true, Bool.not_eq_true', decide_eq_true_eq, decide_eq_false_iff_not] at h
  obtain ⟨⟨⟨⟨⟨h1, ⟨h2, h3⟩, h4⟩, h5⟩, h6⟩, h7⟩, ⟨h8, h9⟩, h10⟩ := h
  refine ⟨h1, ⟨h2, h3, fun hi => h4.resolve_left (fun hc => hc hi)⟩, fun ho => ?_, h6, h7, h8, h9, h10⟩
  exact h5.resolve_left (by simp [ho])

/-- What a running buffer decode has read, as a check. -/
def readCheck (s : State) : Bool :=
  decide (s.idx.toNat ≤ s.bufLen) &&
  (List.range s.idx.toNat).all (fun k => contFlag (Memory.read s.buf k)) &&
  decide (s.acc.toNat = logicalValue (s.bufBytes s.idx.toNat) % 2 ^ 64)

theorem bufferRead_of_check {s : State} (h : readCheck s = true) : s.BufferRead := by
  simp only [readCheck, Bool.and_eq_true, decide_eq_true_eq, List.all_eq_true, List.mem_range] at h
  exact fun _ _ _ => ⟨h.1.1, h.1.2, h.2⟩

theorem issuing_issues (i : Instr) (d q : List Byte) : (issuing i d q).Issues i := ⟨by simp [issuing, State.busy], rfl⟩

theorem issuing_buffer (i : Instr) (d q : List Byte) : (issuing i d q).BufferIs d := by
  refine ⟨rfl, fun k hk => ?_⟩
  have := Memory.read_writeAll_same (m := []) (a := 0) d hk
  rwa [Nat.zero_add] at this

theorem issuing_begins (i : Instr) (d q : List Byte) : (issuing i d q).BufferBegins d :=
  ⟨(issuing_buffer i d q).1.ge, (issuing_buffer i d q).2⟩

theorem issuing_stream (i : Instr) (d q : List Byte) : (issuing i d q).StreamIs q := ⟨rfl, rfl⟩

theorem witness_ResetInAnyPhase :
    ∃ (s : State) (rest : List HostAct), s.busy = true ∧ s.host = .reset :: rest :=
  ⟨{ onBuffer .decpB (ffs 2) [1#8] with host := [.reset] }, [], by decide, rfl⟩

theorem witness_StepKeepsInvariant : ∃ s t : State, s.Inv ∧ s.busy = true ∧ step s = .next t :=
  ⟨onBuffer .decpB (ffs 9) [0xff#8], _, inv_of_check (by decide), by decide, rfl⟩

theorem witness_StepKeepsBufferRead :
    ∃ s t : State, s.Inv ∧ s.BufferRead ∧ s.busy = true ∧ s.opk = true ∧ s.stream = false ∧ step s = .next t :=
  ⟨onBuffer .decpB (ffs 9) [0xff#8], _, inv_of_check (by decide), bufferRead_of_check (by decide), by decide, by decide,
    by decide, rfl⟩

/-- The least and greatest words of each clause. -/
theorem witness_IllegalWordsByField :
    ((0x10#8).extractLsb' 4 4 ≠ 0#4 ∧ (0xff#8).extractLsb' 4 4 ≠ 0#4) ∧
    ((0x08#8).extractLsb' 4 4 = 0#4 ∧ (0x08#8).getLsbD 3 = true ∧ (0x0f#8).extractLsb' 4 4 = 0#4 ∧
      (0x0f#8).getLsbD 3 = true) ∧
    0x01#8 ∈ [0x01#8, 0x02#8, 0x03#8] ∧ 0x03#8 ∈ [0x01#8, 0x02#8, 0x03#8] := by decide

theorem witness_IllegalWordCompletesAtOnce :
    ∃ (s : State) (w : Byte) (rest : List HostAct), s.busy = false ∧ s.host = .write 0 w.toNat :: rest ∧
      w ∉ [0x00#8, 0x04#8, 0x05#8, 0x06#8, 0x07#8] :=
  ⟨{ State.reset with host := [.write 0 0x08] }, 0x08#8, [], by decide, rfl, by decide⟩

theorem witness_StepRunsTheCommand :
    (∃ (s : State) (w : Byte) (rest : List HostAct) (i : Instr), s.busy = false ∧ s.host = .write 0 w.toNat :: rest ∧
      decodeCmd w = .command i) ∧
    (∃ s : State, s.busy = true ∧ s.host = []) ∧
    (∃ (s : State) (rest : List HostAct), s.busy = true ∧ s.host = .pass :: rest) ∧
    ∃ (s : State) (rest : List HostAct), s.busy = true ∧ s.done = false ∧ s.host = .wait :: rest :=
  ⟨⟨issuing .decsS [] [1#8], 0x07#8, [], .decsS, by decide, rfl, by decide⟩, ⟨sizing 1#64, by decide, rfl⟩,
    ⟨{ sizing 1#64 with host := [.pass] }, [], by decide, rfl⟩,
    ⟨{ sizing 1#64 with host := [.wait] }, [], by decide, by decide, rfl⟩⟩

/-- Each clause, in phase IDLE and in phase DONE. -/
theorem witness_IdleUnitDoesNothing :
    (∃ s : State, s.busy = false ∧ s.done = true ∧ s.host = []) ∧
    (∃ (s : State) (rest : List HostAct), s.busy = false ∧ s.host = .pass :: rest) ∧
    (∃ (s : State) (rest : List HostAct), s.busy = false ∧ s.done = false ∧ s.host = .wait :: rest) ∧
    ∃ (s : State) (rest : List HostAct), s.busy = false ∧ s.done = true ∧ s.host = .wait :: rest :=
  ⟨⟨{ State.reset with status := 0x41#8 }, by decide, by decide, rfl⟩,
    ⟨{ State.reset with host := [.pass] }, [], by decide, rfl⟩,
    ⟨{ State.reset with host := [.wait, .read 1] }, [.read 1], by decide, by decide, rfl⟩,
    { State.reset with status := 0x41#8, host := [.wait, .read 1] }, [.read 1], by decide, by decide, rfl⟩

theorem witness_StartLatchesAndClears :
    ∃ (s : State) (w : Byte) (rest : List HostAct), s.busy = false ∧ s.done = true ∧ s.acc ≠ 0#64 ∧
      decodeCmd w = .command .decsS ∧ s.host = .write 0 w.toNat :: rest :=
  ⟨{ runningAfter .decpB (ffs 3) with status := 0x43#8, host := [.write 0 7] }, 0x07#8, [], by decide, by decide, by decide,
    by decide, rfl⟩

theorem witness_FinishWritesResults : ∃ s : State, s.busy = true ∧ s.host = [] := ⟨sizing 1#64, by decide, rfl⟩

/-- The bit lengths 1, 7, 8 and 64. -/
theorem witness_SizeOfBitLength :
    (2 ^ (1 - 1) ≤ (1#64).toNat ∧ (1#64).toNat < 2 ^ 1) ∧ (2 ^ (7 - 1) ≤ (127#64).toNat ∧ (127#64).toNat < 2 ^ 7) ∧
    (2 ^ (8 - 1) ≤ (128#64).toNat ∧ (128#64).toNat < 2 ^ 8) ∧
    2 ^ (64 - 1) ≤ (0xffffffffffffffff#64).toNat ∧ (0xffffffffffffffff#64).toNat < 2 ^ 64 := by decide

/-- Both ends of the table, and both sides of its first threshold. -/
theorem witness_SizeThresholds :
    size 0#64 = 1 ∧ size 0x7f#64 = 1 ∧ size 0x80#64 = 2 ∧ size 0x7fffffffffffffff#64 = 9 ∧
      size 0x8000000000000000#64 = 10 := by decide

theorem witness_SizeCommand :
    (∃ s : State, s.busy = false) ∧ ∃ s : State, s.busy = true ∧ s.opk = false :=
  ⟨⟨State.reset, by decide⟩, sizing 0#64, by decide, by decide⟩

theorem witness_SizeOperation : ∃ s : State, s.Issues .size := ⟨issuing .size [] [], by decide, rfl⟩

/-- A state on every branch of the step: the end of the buffer, index 10, index 9 with 2 and with 1, and a continuation byte. -/
theorem witness_DecpBStep :
    ∀ p ∈ [(ffs 0, []), (ffs 10, []), (ffs 10, [0#8]), (ffs 9, [2#8]), (ffs 9, [1#8]), (ffs 9, [0xff#8]), (ffs 0, [0x7f#8])],
      (onBuffer .decpB p.1 p.2).busy = true ∧ (onBuffer .decpB p.1 p.2).running = .decpB := by decide

theorem witness_DecsBStep :
    ∀ p ∈ [(ffs 0, []), (ffs 8, []), (ffs 8, [0x80#8]), (ffs 9, [0#8]), (ffs 1, [0#8]), (ffs 0, [0#8]), (ffs 8, [0x7f#8]),
      (ffs 7, [0xff#8])],
      (onBuffer .decsB p.1 p.2).busy = true ∧ (onBuffer .decsB p.1 p.2).running = .decsB := by decide

theorem witness_DecpSStep :
    (∀ p ∈ [(ffs 0, 0x7f#8), (ffs 9, 2#8), (ffs 9, 1#8), (ffs 9, 0xff#8), (ffs 8, 0xff#8)],
      (onStream .decpS p.1 [.byte p.2] .silent).busy = true ∧ (onStream .decpS p.1 [.byte p.2] .silent).running = .decpS ∧
        (onStream .decpS p.1 [.byte p.2] .silent).nextInput = some (.byte p.2)) ∧
    ∀ p ∈ [ffs 0, ffs 1], (onStream .decpS p [] .closed).busy = true ∧ (onStream .decpS p [] .closed).running = .decpS ∧
      (onStream .decpS p [] .closed).nextInput = some .eof := by decide

theorem witness_DecsSStep :
    (∀ p ∈ [(ffs 0, 0#8), (ffs 1, 0#8), (ffs 8, 0x7f#8), (ffs 8, 0x80#8), (ffs 9, 0#8), (ffs 7, 0xff#8)],
      (onStream .decsS p.1 [.byte p.2] .silent).busy = true ∧ (onStream .decsS p.1 [.byte p.2] .silent).running = .decsS ∧
        (onStream .decsS p.1 [.byte p.2] .silent).nextInput = some (.byte p.2)) ∧
    ∀ p ∈ [ffs 0, ffs 1], (onStream .decsS p [.eof] .silent).busy = true ∧ (onStream .decsS p [.eof] .silent).running = .decsS ∧
      (onStream .decsS p [.eof] .silent).nextInput = some .eof := by decide

/-- DECP.B at index 8, the last where no bit is lost; and the state after index 9. -/
theorem witness_ContinuingStepAccumulates :
    (∃ (s t : State) (b : Byte), Instr.decpB ≠ .size ∧ s.busy = true ∧ s.nextInput = some (.byte b) ∧
      exec .decpB s = .next t ∧ t.busy = true ∧ s.Inv ∧ ¬ (Instr.decpB = .decpB ∧ s.idx = 9#4)) ∧
    ∃ s : State, s.busy = true ∧ s.running = .decpB ∧ s.idx = 10#4 :=
  ⟨⟨onBuffer .decpB (ffs 8) [0xff#8], _, 0xff#8, by decide, by decide, by decide, rfl, by decide, inv_of_check (by decide),
    by decide⟩, onBuffer .decpB (ffs 10) [], by decide, by decide, by decide⟩

/-- The tenth byte of a buffer; a stream that is not closed, delays an answer and keeps a byte. -/
theorem witness_OkDeliversLogicalValue :
    (∃ s t : State, s.Inv ∧ s.BufferRead ∧ s.busy = true ∧ s.opk = true ∧ s.stream = false ∧
      exec .decpB s = .next t ∧ t.busy = false ∧ t.code = Code.ok.bits) ∧
    ∃ (s t : State) (k n : Nat), s.Issues .decpS ∧ core.run k s = .next t ∧ t.host = [] ∧ t.Completed .ok n ∧
      t.strm = [.byte 5#8] ∧ t.strmAfter = .silent :=
  ⟨⟨onBuffer .decpB (ffs 9) [1#8], _, inv_of_check (by decide), bufferRead_of_check (by decide), by decide, by decide,
    by decide, rfl, by decide, by decide⟩,
    { issuing .decpS [] [] with strm := [.byte 0xac#8, .notYet, .byte 2#8, .byte 5#8], strmAfter := .silent }, _, 4, 2,
    ⟨by decide, rfl⟩, rfl, by decide, ⟨by decide, by decide, by decide, by decide⟩, by decide, by decide⟩

theorem witness_EndOfSourceByKind :
    (∃ s : State, s.busy = true ∧ s.opk = true ∧ s.stream = false ∧ s.bufLen ≤ s.idx.toNat) ∧
    (∃ s : State, s.busy = true ∧ s.opk = true ∧ s.stream = true ∧ s.nextInput = some .eof ∧ s.idx = 0#4) ∧
    (∃ s : State, s.busy = true ∧ s.opk = true ∧ s.stream = true ∧ s.nextInput = some .eof ∧ s.idx ≠ 0#4) ∧
    (∃ s : State, s.stream = true ∧ s.nextInput = some .eof ∧ s.streamTaken.strm ≠ s.strm) ∧
    (∃ s t : State, s.busy = true ∧ exec .decpB s = .next t ∧ t.busy = false ∧ t.code = Code.truncated.bits) ∧
    (∃ s t : State, s.busy = true ∧ exec .decpS s = .next t ∧ t.busy = false ∧ t.code = Code.endOfInput.bits) ∧
    ∃ s t : State, s.busy = true ∧ exec .decsS s = .next t ∧ t.busy = false ∧ t.code = Code.unexpectedEnd.bits :=
  ⟨⟨onBuffer .decpB (ffs 10) [], by decide⟩, ⟨onStream .decpS [] [] .closed, by decide⟩,
    ⟨onStream .decsS (ffs 1) [.eof] .silent, by decide⟩, ⟨onStream .decsS (ffs 1) [.eof, .byte 1#8] .silent, by decide⟩,
    ⟨onBuffer .decpB (ffs 1) [], _, by decide, rfl, by decide, by decide⟩,
    ⟨onStream .decpS [] [] .closed, _, by decide, rfl, by decide, by decide⟩,
    onStream .decsS (ffs 1) [.eof] .silent, _, by decide, rfl, by decide, by decide⟩

/-- Ten bytes in DECP.B and eight in DECS.B, the most that end as TRUNCATED. -/
theorem witness_TruncatedExactlyWhen :
    (∃ s t : State, s.Inv ∧ s.BufferRead ∧ s.busy = true ∧ exec .decpB s = .next t ∧ t.busy = false ∧
      t.code = Code.truncated.bits ∧ s.idx = 10#4) ∧
    ∃ s t : State, s.Inv ∧ s.BufferRead ∧ s.busy = true ∧ exec .decsB s = .next t ∧ t.busy = false ∧
      t.code = Code.truncated.bits ∧ s.idx = 8#4 :=
  ⟨⟨onBuffer .decpB (ffs 10) [], _, inv_of_check (by decide), bufferRead_of_check (by decide), by decide, rfl, by decide,
    by decide, by decide⟩,
    onBuffer .decsB (ffs 8) [], _, inv_of_check (by decide), bufferRead_of_check (by decide), by decide, rfl, by decide,
    by decide, by decide⟩

/-- Each listed case of OVERFLOW. -/
theorem witness_OverflowExactlyWhen :
    (∃ s t : State, s.Inv ∧ s.busy = true ∧ exec .decsB s = .next t ∧ t.busy = false ∧ t.code = Code.overflow.bits) ∧
    (∃ s t : State, s.Inv ∧ s.busy = true ∧ exec .decsS s = .next t ∧ t.busy = false ∧ t.code = Code.overflow.bits) ∧
    (∃ s t : State, s.Inv ∧ s.busy = true ∧ exec .decpB s = .next t ∧ t.busy = false ∧ t.code = Code.overflow.bits ∧
      t.count = 10#4) ∧
    (∃ s t : State, s.Inv ∧ s.busy = true ∧ exec .decpB s = .next t ∧ t.busy = false ∧ t.code = Code.overflow.bits ∧
      t.count = 11#4) ∧
    ∃ s t : State, s.Inv ∧ s.busy = true ∧ exec .decpS s = .next t ∧ t.busy = false ∧ t.code = Code.overflow.bits :=
  ⟨⟨onBuffer .decsB (ffs 8) [0x80#8], _, inv_of_check (by decide), by decide, rfl, by decide, by decide⟩,
    ⟨onStream .decsS (ffs 8) [.byte 0x80#8] .silent, _, inv_of_check (by decide), by decide, rfl, by decide, by decide⟩,
    ⟨onBuffer .decpB (ffs 9) [2#8], _, inv_of_check (by decide), by decide, rfl, by decide, by decide, by decide⟩,
    ⟨onBuffer .decpB (ffs 10) [0#8], _, inv_of_check (by decide), by decide, rfl, by decide, by decide, by decide⟩,
    onStream .decpS (ffs 9) [.byte 0x80#8] .silent, _, inv_of_check (by decide), by decide, rfl, by decide, by decide⟩

/-- Indexes 1 and 8, the first and the last that end as NON_MINIMAL. -/
theorem witness_NonMinimalExactlyWhen :
    (∃ s t : State, s.Inv ∧ s.busy = true ∧ exec .decsB s = .next t ∧ t.busy = false ∧ t.code = Code.nonMinimal.bits ∧
      s.idx = 1#4) ∧
    ∃ s t : State, s.Inv ∧ s.busy = true ∧ exec .decsS s = .next t ∧ t.busy = false ∧ t.code = Code.nonMinimal.bits ∧
      s.idx = 8#4 :=
  ⟨⟨onBuffer .decsB (ffs 1) [0#8], _, inv_of_check (by decide), by decide, rfl, by decide, by decide, by decide⟩,
    onStream .decsS (ffs 8) [.byte 0#8] .silent, _, inv_of_check (by decide), by decide, rfl, by decide, by decide, by decide⟩

theorem witness_CompletionsOfEachCommand :
    (∃ s t : State, s.Inv ∧ s.busy = true ∧ exec .size s = .next t ∧ t.busy = false) ∧
    (∃ s t : State, s.Inv ∧ s.busy = true ∧ exec .decpB s = .next t ∧ t.busy = false) ∧
    (∃ s t : State, s.Inv ∧ s.busy = true ∧ exec .decpS s = .next t ∧ t.busy = false) ∧
    (∃ s t : State, s.Inv ∧ s.busy = true ∧ exec .decsB s = .next t ∧ t.busy = false) ∧
    ∃ s t : State, s.Inv ∧ s.busy = true ∧ exec .decsS s = .next t ∧ t.busy = false :=
  ⟨⟨sizing 0xffffffffffffffff#64, _, inv_of_check (by decide), by decide, rfl, by decide⟩,
    ⟨onBuffer .decpB (ffs 10) [], _, inv_of_check (by decide), by decide, rfl, by decide⟩,
    ⟨onStream .decpS (ffs 9) [] .closed, _, inv_of_check (by decide), by decide, rfl, by decide⟩,
    ⟨onBuffer .decsB (ffs 8) [], _, inv_of_check (by decide), by decide, rfl, by decide⟩,
    onStream .decsS (ffs 8) [] .closed, _, inv_of_check (by decide), by decide, rfl, by decide⟩

theorem witness_SentinelOfDecpB :
    ∃ s t : State, s.Inv ∧ s.busy = true ∧ exec .decpB s = .next t ∧ t.busy = false :=
  ⟨onBuffer .decpB [] [], _, inv_of_check (by decide), by decide, rfl, by decide⟩

theorem witness_CommandsLeaveOperands : ∃ s t : State, s.busy = true ∧ exec .decpB s = .next t :=
  ⟨onBuffer .decpB (ffs 1) [1#8], _, by decide, rfl⟩

/-- A step that takes the answer, one that finds none, a buffer step, and a start. -/
theorem witness_StreamTakenOneByOne :
    (∃ s t : State, exec .decsS s = .next t ∧ s.strm = .byte 1#8 :: t.strm) ∧
    (∃ s t : State, exec .decsS s = .next t ∧ t.strm = s.strm) ∧
    (∃ s t : State, exec .decpB s = .next t ∧ t.strm = s.strm) ∧ ∃ s t : State, s.busy = false ∧ exec .decpS s = .next t :=
  ⟨⟨onStream .decsS [] [.byte 1#8, .eof] .closed, _, rfl, rfl⟩, ⟨onStream .decsS [] [] .silent, _, rfl, rfl⟩,
    ⟨onBuffer .decpB [] [1#8], _, rfl, rfl⟩, State.reset, _, by decide, rfl⟩

theorem witness_RunStepFrame :
    (∃ s t : State, s.busy = true ∧ exec .decpB s = .next t ∧ t.busy = true) ∧
    (∃ s t : State, s.busy = true ∧ exec .decpB s = .next t ∧ t.busy = false) ∧
    ∃ s t : State, s.busy = true ∧ exec .size s = .next t :=
  ⟨⟨onBuffer .decpB [] (ffs 1), _, by decide, rfl, by decide⟩, ⟨onBuffer .decpB [] [], _, by decide, rfl, by decide⟩,
    sizing 0#64, _, by decide, rfl⟩

/-- A completion, an illegal word, and a reset that change COUNT. -/
theorem witness_ResultsKeptUntilCompletion :
    (∃ s t : State, step s = .next t ∧ t.count ≠ s.count ∧ s.busy = true) ∧
    (∃ s t : State, step s = .next t ∧ t.count ≠ s.count ∧ s.host = [.write 0 0xff]) ∧
    ∃ s t : State, step s = .next t ∧ t.count ≠ s.count ∧ s.host = [.reset] :=
  ⟨⟨sizing 0#64, _, rfl, by decide, by decide⟩,
    ⟨{ State.reset with count := 3#4, host := [.write 0 0xff] }, _, rfl, by decide, rfl⟩,
    { State.reset with count := 3#4, host := [.reset] }, _, rfl, by decide, rfl⟩

theorem witness_DoneKeptUntilCommandOrReset : ∃ s t : State, s.Inv ∧ s.done = true ∧ step s = .next t :=
  ⟨{ State.reset with status := 0x48#8, host := [.read 1] }, _, inv_of_check (by decide), by decide, rfl⟩

/-- Reads of `CMD`, of a register and of an absent number; writes of each read-only register, of an absent one and, with the
greatest values of their widths, of the operand registers. -/
theorem witness_RegisterAccess :
    (∀ no ∈ [0, 5, 6], ∃ (s : State) (rest : List HostAct), s.host = .read no :: rest) ∧
    (∀ no ∈ [1, 4, 5, 6], ∃ (s : State) (v : Nat) (rest : List HostAct), s.busy = true ∧ s.host = .write no v :: rest) ∧
    (∃ (s : State) (v : Word) (rest : List HostAct), s.host = .write 2 v.toNat :: rest ∧ s.busy = false) ∧
    ∃ (s : State) (n : Nat) (rest : List HostAct), s.host = .write 3 n :: rest ∧ n + 1 = 2 ^ s.lenW ∧ s.busy = false :=
  ⟨fun no _ => ⟨{ State.reset with host := [.read no] }, [], rfl⟩,
    fun no _ => ⟨{ sizing 0#64 with host := [.write no 1] }, 1, [], (by show (sizing 0#64).busy = true; decide), rfl⟩,
    ⟨{ State.reset with host := [.write 2 0xffffffffffffffff] }, 0xffffffffffffffff#64, [], rfl, by decide⟩,
    { State.reset with host := [.write 3 0xffffffff] }, 0xffffffff, [], rfl, by decide, by decide⟩

/-- Each readable register, and the last offset of the buffer and the first beyond it. -/
theorem witness_HostReads :
    (∀ no ∈ [1, 2, 3, 4, 5], ∃ (s : State) (rest : List HostAct), s.host = .read no :: rest) ∧
    (∃ (s : State) (off : Nat) (rest : List HostAct), s.host = .load off :: rest ∧ off + 1 = 2 ^ s.lenW) ∧
    ∃ (s : State) (off : Nat) (rest : List HostAct), s.host = .load off :: rest ∧ off = 2 ^ s.lenW :=
  ⟨fun no _ => ⟨{ State.reset with host := [.read no] }, [], rfl⟩,
    ⟨{ State.resetWith 4 with host := [.load 15] }, 15, [], rfl, by decide⟩,
    { State.resetWith 4 with host := [.load 16] }, 16, [], rfl, by decide⟩

theorem witness_NoRegisterWriteWhileBusy :
    (∃ (s : State) (v : Nat) (rest : List HostAct), s.busy = true ∧ s.host = .write 0 v :: rest) ∧
    (∃ (s : State) (v : Nat) (rest : List HostAct), s.busy = true ∧ s.host = .write 2 v :: rest) ∧
    (∃ (s : State) (v : Nat) (rest : List HostAct), s.busy = true ∧ s.host = .write 3 v :: rest) ∧
    ∃ (s : State) (rest : List HostAct), s.busy = true ∧ s.host = .read 1 :: rest ∧ s.Inv :=
  ⟨⟨{ sizing 0#64 with host := [.write 0 1] }, 1, [], by decide, rfl⟩,
    ⟨{ sizing 0#64 with host := [.write 2 1] }, 1, [], by decide, rfl⟩,
    ⟨{ sizing 0#64 with host := [.write 3 1] }, 1, [], by decide, rfl⟩,
    { sizing 0#64 with host := [.read 1] }, [], by decide, rfl, inv_of_check (by decide)⟩

/-- The last held byte of a long buffer and the first free one; the last offset of the buffer and the first beyond it; a store at
a held offset while SIZE runs. -/
theorem witness_BufferStores :
    (let s : State := { onBuffer .decpB [] (ffs 12) with host := [.store 10 1#8] };
      10 < 2 ^ s.lenW ∧ s.busy = true ∧ s.opk = true ∧ s.stream = false ∧ 10 < min s.bufLen 11) ∧
    (let s : State := { onBuffer .decpB [] (ffs 12) with host := [.store 11 1#8] };
      11 < 2 ^ s.lenW ∧ s.busy = true ∧ s.opk = true ∧ s.stream = false ∧ ¬ 11 < min s.bufLen 11) ∧
    15 < 2 ^ (State.resetWith 4).lenW ∧ 2 ^ (State.resetWith 4).lenW ≤ 16 ∧
    (sizing 0#64).busy = true ∧ (sizing 0#64).opk = false := by decide

theorem witness_RefusedExactlyOnBrokenDuty :
    (∃ s : State, s.breaksDuty = true ∧ s.host = [.store 10 1#8]) ∧
    (∃ s : State, s.strays = true ∧ s.host = [.store 16 1#8]) ∧ (∃ s : State, s.strays = true ∧ s.host = [.load 16]) ∧
    ∃ s : State, s.breaksDuty = false ∧ s.strays = false ∧ s.busy = true :=
  ⟨⟨{ onBuffer .decpB [] (ffs 12) with host := [.store 10 1#8] }, by decide, rfl⟩,
    ⟨{ State.resetWith 4 with host := [.store 16 1#8] }, by decide, rfl⟩,
    ⟨{ State.resetWith 4 with host := [.load 16] }, by decide, rfl⟩, sizing 0#64, by decide, by decide, by decide⟩

theorem witness_StreamBlocksAndBuffersNever :
    (∃ s : State, s.busy = true ∧ s.opk = true ∧ s.stream = true ∧ s.nextInput = none) ∧
    (∃ s : State, s.busy = true ∧ s.opk = true ∧ s.stream = true ∧ s.host = [] ∧ s.strm = [] ∧ s.strmAfter = .silent) ∧
    (∃ s t : State, s.Inv ∧ s.busy = true ∧ s.opk = false ∧ exec s.running s = .next t) ∧
    ∃ s t : State, s.Inv ∧ s.busy = true ∧ s.stream = false ∧ exec s.running s = .next t ∧ t.busy = true :=
  ⟨⟨onStream .decsS [] [.notYet] .closed, by decide⟩, ⟨onStream .decsS [] [] .silent, by decide, by decide, by decide, rfl, rfl, rfl⟩,
    ⟨sizing 0#64, _, inv_of_check (by decide), by decide, by decide, rfl⟩,
    onBuffer .decsB [] (ffs 1), _, inv_of_check (by decide), by decide, by decide, rfl, by decide⟩

theorem witness_RunStepEndsOrAdvances :
    (∃ s t : State, s.Inv ∧ s.busy = true ∧ exec .size s = .next t) ∧
    (∃ s t : State, s.Inv ∧ s.busy = true ∧ exec .decpB s = .next t ∧ s.idx = 9#4 ∧ t.busy = true) ∧
    ∃ s t : State, s.Inv ∧ s.busy = true ∧ exec .decsS s = .next t ∧ s.nextInput = none :=
  ⟨⟨sizing 0#64, _, inv_of_check (by decide), by decide, rfl⟩,
    ⟨onBuffer .decpB (ffs 9) (ffs 1), _, inv_of_check (by decide), by decide, rfl, by decide, by decide⟩,
    onStream .decsS [] [.notYet] .closed, _, inv_of_check (by decide), by decide, rfl, by decide⟩

theorem witness_OperationTerminates :
    (∃ s : State, s.Inv ∧ s.busy = true ∧ s.host = [] ∧ s.stream = false ∧ s.opk = true) ∧
    ∃ (s : State) (d : List Byte), s.Inv ∧ s.busy = true ∧ s.host = [] ∧ s.stream = true ∧ s.StreamIs d :=
  ⟨⟨onBuffer .decpB [] (ffs 12), inv_of_check (by decide), by decide, rfl, by decide, by decide⟩,
    onStream .decpS [] [.byte 0x80#8, .byte 1#8] .closed, [0x80#8, 1#8], inv_of_check (by decide), by decide, rfl, by decide,
    rfl, rfl⟩

/-- Twelve bytes, of which the twelfth differs, under a `BUF_LEN` of 12 and of 11, in DECP.B; nine and ten in DECS.B. -/
theorem witness_UnreadBytesDoNotMatter :
    (∃ (s t : State) (m : Memory) (n : Nat), s.Inv ∧ s.busy = true ∧
      (∀ k, k < min s.bufLen (idxCap .decpB + 1) → Memory.read m k = Memory.read s.buf k) ∧
      min n (idxCap .decpB + 1) = min s.bufLen (idxCap .decpB + 1) ∧ exec .decpB s = .next t ∧
      n ≠ s.bufLen ∧ m ≠ s.buf) ∧
    ∃ (s t : State) (m : Memory) (n : Nat), s.Inv ∧ s.busy = true ∧
      (∀ k, k < min s.bufLen (idxCap .decsB + 1) → Memory.read m k = Memory.read s.buf k) ∧
      min n (idxCap .decsB + 1) = min s.bufLen (idxCap .decsB + 1) ∧ exec .decsB s = .next t ∧
      n ≠ s.bufLen ∧ m ≠ s.buf :=
  ⟨⟨onBuffer .decpB [] (ffs 12), _, Memory.writeAll [] 0 (ffs 11 ++ [1#8]), 11, inv_of_check (by decide), by decide,
    by decide, by decide, rfl, by decide, by decide⟩,
    onBuffer .decsB [] (ffs 10), _, Memory.writeAll [] 0 (ffs 9 ++ [1#8]), 9, inv_of_check (by decide), by decide,
    by decide, by decide, rfl, by decide, by decide⟩

/-- Two states that differ outside the command's own operands. -/
theorem witness_CompletionDependsOnOwnOperands :
    (∃ s s' : State, s.Issues .size ∧ s'.Issues .size ∧ s.valIn = s'.valIn ∧ s ≠ s') ∧
    (∃ s s' : State, s.Issues .decsB ∧ s'.Issues .decsB ∧ s.bufLen = s'.bufLen ∧ s.buf = s'.buf ∧ s ≠ s') ∧
    ∃ s s' : State, s.Issues .decpS ∧ s'.Issues .decpS ∧ s.strm = s'.strm ∧ s.strmAfter = s'.strmAfter ∧ s ≠ s' :=
  ⟨⟨issuing .size [1#8] [], issuing .size [] [1#8], ⟨by decide, rfl⟩, ⟨by decide, rfl⟩, rfl, by decide⟩,
    ⟨issuing .decsB [1#8] [], issuing .decsB [1#8] [1#8], ⟨by decide, rfl⟩, ⟨by decide, rfl⟩, rfl, rfl, by decide⟩,
    issuing .decpS [1#8] [1#8], issuing .decpS [] [1#8], ⟨by decide, rfl⟩, ⟨by decide, rfl⟩, rfl, rfl, by decide⟩

theorem witness_MachineIteratesDecStep :
    (∃ (s : State) (answers : List Input) (code : Code) (v : Option Word) (n : BitVec 4), s.Issues .decsB ∧
      answers = (s.bufBytes s.bufLen).map Input.byte ++ [.eof] ∧
      decodeRun true false Loop.start answers = some (code, v, n)) ∧
    ∃ (s : State) (answers : List Input) (code : Code) (v : Option Word) (n : BitVec 4), s.Issues .decpS ∧
      answers = answersOf s.strm ++ (if s.strmAfter = .closed then [.eof] else []) ∧
      decodeRun false true Loop.start answers = some (code, v, n) ∧ s.strm = [.byte 0xac#8, .notYet, .byte 2#8] :=
  ⟨⟨issuing .decsB [0xac#8, 2#8] [], _, .ok, some 300#64, 2#4, ⟨by decide, rfl⟩, rfl, by decide⟩,
    { issuing .decpS [] [] with strm := [.byte 0xac#8, .notYet, .byte 2#8] }, _, .ok, some 300#64, 2#4, ⟨by decide, rfl⟩, rfl,
    by decide, rfl⟩

/-- Each row of the strict table: OK at the first byte and at the ninth, NON_MINIMAL, OVERFLOW, and the two ends. -/
theorem witness_StrictBufferTable :
    ∀ d ∈ [[0#8], ffs 8 ++ [0x7f#8], [0x81#8, 0#8], ffs 8 ++ [0#8], ffs 9, ffs 8, []],
      ∃ s : State, s.Issues .decsB ∧ s.BufferIs d :=
  fun d _ => ⟨issuing .decsB d [], issuing_issues _ _ _, issuing_buffer _ _ _⟩

theorem witness_StrictStreamTable :
    ∀ d ∈ [[0#8], ffs 8 ++ [0x7f#8], [0x81#8, 0#8], ffs 9 ++ [1#8], ffs 8, []],
      ∃ s : State, s.Issues .decsS ∧ s.StreamIs d :=
  fun d _ => ⟨issuing .decsS [] d, issuing_issues _ _ _, issuing_stream _ _ _⟩

/-- Each row of the permissive table: OK, the tenth byte 1 and 2, ten and eleven continuation bytes, and the two ends. -/
theorem witness_PermissiveBufferTable :
    ∀ d ∈ [[0#8], ffs 9 ++ [1#8], ffs 9 ++ [2#8], ffs 10, ffs 10 ++ [0#8], ffs 11, []],
      ∃ s : State, s.Issues .decpB ∧ s.BufferIs d :=
  fun d _ => ⟨issuing .decpB d [], issuing_issues _ _ _, issuing_buffer _ _ _⟩

theorem witness_PermissiveStreamTable :
    ∀ d ∈ [[0#8], ffs 9 ++ [1#8], ffs 9 ++ [2#8], ffs 10 ++ [0xff#8], ffs 9, []],
      ∃ s : State, s.Issues .decpS ∧ s.StreamIs d :=
  fun d _ => ⟨issuing .decpS [] d, issuing_issues _ _ _, issuing_stream _ _ _⟩

/-- 0 and `2^63 - 1`, the ends of the strict range. -/
theorem witness_StrictRecoversEncoded :
    ((∃ s : State, s.Issues .decsB ∧ s.BufferBegins (enc 0#64)) ∧ (0#64).toNat < 2 ^ 63) ∧
    ((∃ s : State, s.Issues .decsB ∧ s.BufferBegins (enc 0x7fffffffffffffff#64)) ∧ (0x7fffffffffffffff#64).toNat < 2 ^ 63) ∧
    ∀ v : Word, ∃ s : State, s.Issues .decsS ∧ s.strm = (enc v).map SrcEvent.byte ++ [.byte 5#8] :=
  ⟨⟨⟨issuing .decsB (enc 0#64) [], issuing_issues _ _ _, issuing_begins _ _ _⟩, by decide⟩,
    ⟨⟨issuing .decsB (enc 0x7fffffffffffffff#64) [], issuing_issues _ _ _,
      issuing_begins _ _ _⟩, by decide⟩,
    fun v => ⟨issuing .decsS [] (enc v ++ [5#8]), issuing_issues _ _ _, by simp [issuing]⟩⟩

/-- 0 and `2^64 - 1`, the ends of the 64-bit range. -/
theorem witness_PermissiveRecoversEncoded :
    (∃ s : State, s.Issues .decpB ∧ s.BufferBegins (enc 0#64)) ∧
    (∃ s : State, s.Issues .decpB ∧ s.BufferBegins (enc 0xffffffffffffffff#64)) ∧
    ∀ v : Word, ∃ s : State, s.Issues .decpS ∧ s.strm = (enc v).map SrcEvent.byte ++ [.byte 5#8] :=
  ⟨⟨issuing .decpB (enc 0#64) [], issuing_issues _ _ _, issuing_begins _ _ _⟩,
    ⟨issuing .decpB (enc 0xffffffffffffffff#64) [], issuing_issues _ _ _,
      issuing_begins _ _ _⟩,
    fun v => ⟨issuing .decpS [] (enc v ++ [5#8]), issuing_issues _ _ _, by simp [issuing]⟩⟩

/-- `2^63`, the least value the strict mode refuses. -/
theorem witness_StrictRefusesWideValues :
    2 ^ 63 ≤ (0x8000000000000000#64).toNat ∧
      (∃ s : State, s.Issues .decsB ∧ s.BufferBegins (enc 0x8000000000000000#64)) ∧
      ∃ s : State, s.Issues .decsS ∧ s.strm = (enc 0x8000000000000000#64).map SrcEvent.byte ++ [] :=
  ⟨by decide, ⟨issuing .decsB (enc 0x8000000000000000#64) [], issuing_issues _ _ _,
      issuing_begins _ _ _⟩,
    issuing .decsS [] (enc 0x8000000000000000#64), issuing_issues _ _ _, by simp [issuing]⟩

theorem witness_StrictOkIsCanonical :
    (∃ s t : State, s.Inv ∧ s.BufferRead ∧ s.busy = true ∧ exec .decsB s = .next t ∧ t.busy = false ∧
      t.code = Code.ok.bits) ∧
    ∃ (s t : State) (k n : Nat), s.Issues .decsS ∧ core.run k s = .next t ∧ t.host = [] ∧ t.Completed .ok n ∧
      t.strm = [.byte 5#8] :=
  ⟨⟨onBuffer .decsB (ffs 8) [0x7f#8], _, inv_of_check (by decide), bufferRead_of_check (by decide), by decide, rfl, by decide,
    by decide⟩,
    { issuing .decsS [] [] with strm := [.byte 0xac#8, .notYet, .byte 2#8, .byte 5#8], strmAfter := .silent }, _, 4, 2,
    ⟨by decide, rfl⟩, rfl, by decide, ⟨by decide, by decide, by decide, by decide⟩, by decide⟩

theorem witness_StrictOkImpliesPermissiveOk :
    ∃ (answers : List Input) (v : Option Word) (n : BitVec 4),
      decodeRun true true Loop.start answers = some (.ok, v, n) :=
  ⟨[.byte 0xac#8, .byte 0x02#8], some 300#64, 2#4, by decide⟩

theorem witness_EncLoopForm : (0x7f#64).toNat < 0x80 ∧ 0x80 ≤ (0x80#64).toNat := by decide

/-- A canonical value of ten bytes: the largest of 64 bits. -/
theorem witness_EncIsTheCanonicalEncoding :
    isCanonical (ffs 9 ++ [1#8]) = true ∧ (ffs 9 ++ [1#8]).length ≤ 10 ∧ logicalValue (ffs 9 ++ [1#8]) < 2 ^ 64 := by decide

/-- A buffer of exactly the size, and one of a byte less. -/
theorem witness_EncodeIntoBuffer : size 128#64 ≤ 2 ∧ 1 < size 128#64 := by decide

/-- 1 in two bytes; 1 in nine, ten and eleven, where the strict mode's two refusals and the permissive bound meet. -/
theorem witness_PaddedEncodings :
    (∀ n ∈ [2, 9, 10], size 1#64 < n ∧ n ≤ 10 ∧ (∃ s : State, s.Issues .decpB ∧ s.BufferBegins (padded 1#64 n)) ∧
      ∃ s : State, s.Issues .decpS ∧ s.strm = (padded 1#64 n).map SrcEvent.byte ++ [.byte 5#8]) ∧
    ∀ n ∈ [2, 9, 10, 11], size 1#64 < n ∧ (∃ s : State, s.Issues .decsB ∧ s.BufferBegins (padded 1#64 n)) ∧
      ∃ s : State, s.Issues .decsS ∧ s.strm = (padded 1#64 n).map SrcEvent.byte ++ [.byte 5#8] :=
  ⟨fun n hn => ⟨by revert n; decide, by revert n; decide,
      ⟨issuing .decpB (padded 1#64 n) [], issuing_issues _ _ _, issuing_begins _ _ _⟩,
      issuing .decpS [] (padded 1#64 n ++ [5#8]), issuing_issues _ _ _, by simp [issuing]⟩,
    fun n hn => ⟨by revert n; decide,
      ⟨issuing .decsB (padded 1#64 n) [], issuing_issues _ _ _, issuing_begins _ _ _⟩,
      issuing .decsS [] (padded 1#64 n ++ [5#8]), issuing_issues _ _ _, by simp [issuing]⟩⟩

end Sys2Proof.Tests
end

section
/-! SUPPORT. The unit step (R90, R115), case by case: what a fetch answers, what a policy makes of it, and what the step of the
running command does to the state. -/

namespace Sys2Proof.Machine

/-! ### The fetch -/

/-- The state after a request to the source, answered or not: a stream's next event is gone (R42, R111). -/
def State.fetched (s : State) : State := { s with strm := if s.stream then s.strm.tail else s.strm }

theorem fetched_of_stream {s : State} (h : s.stream = true) : s.fetched = s.streamTaken := by
  simp [State.fetched, State.streamTaken, h]

theorem fetched_of_no_event {s : State} (h : s.strm = []) : s.fetched = s := by
  cases s; simp_all [State.fetched]

theorem fetched_of_buffer {s : State} (h : s.stream = false) : s.fetched = s := by
  cases s; simp_all [State.fetched]

/-- A buffer always answers, by the comparison of `IDX` with `BUF_LEN` (R111). -/
theorem nextInput_buffer {s : State} (h : s.stream = false) : s.nextInput = some (bufferNext s) := by
  simp only [State.nextInput, bufferNext, h, Bool.false_eq_true, if_false]
  split <;> rfl

theorem stream_of_nextInput_none {s : State} (h : s.nextInput = none) : s.stream = true := by
  cases hs : s.stream with
  | false => rw [nextInput_buffer hs] at h; cases h
  | true => rfl

/-- A byte is read from a buffer only below `BUF_LEN`, and it is the byte at `IDX` (R41, R111). -/
theorem buffer_byte {s : State} {b : Byte} (hs : s.stream = false) (h : s.nextInput = some (.byte b)) :
    s.idx.toNat < s.bufLen ∧ b = Memory.read s.buf s.idx.toNat := by
  rw [nextInput_buffer hs, bufferNext] at h
  split at h
  · next hlt => cases h; exact ⟨hlt, rfl⟩
  · cases h

/-- A fetch in the statements' terms: `nextInput` is its answer. -/
theorem srcNext_eq (s : State) :
    srcNext s = s.nextInput.elim (.blocked s.fetched) (.answered · s.fetched) := by
  cases hs : s.stream
  · simp [srcNext, hs, nextInput_buffer hs, fetched_of_buffer hs]
  · simp only [srcNext, hs, if_true]
    rcases streamNext_cases s with ⟨b, r, hq, h⟩ | ⟨r, hq, h⟩ | ⟨r, hq, h⟩ | ⟨hq, ha, h⟩ | ⟨hq, ha, h⟩
    · simp [h, State.nextInput, State.fetched, hs, hq]
    · simp [h, State.nextInput, State.fetched, hs, hq]
    · simp [h, State.nextInput, State.fetched, hs, hq]
    · simp [h, State.nextInput, fetched_of_no_event hq, hs, hq, ha]
    · simp [h, State.nextInput, fetched_of_no_event hq, hs, hq, ha]

/-- A decode step in the statements' terms (R115). -/
theorem decodeStep_eq (policy : Loop → Input → StepOut) (s : State) :
    decodeStep policy s = s.nextInput.elim s.fetched fun inp => s.fetched.apply (policy s.loop inp) := by
  rw [decodeStep, srcNext_eq]
  cases s.nextInput <;> rfl

/-! ### The running command -/

theorem running_eq_size {s : State} : s.running = .size ↔ s.opk = false := by
  unfold State.running
  split <;> simp_all

theorem running_buffer {s : State} : s.running = .decpB ∨ s.running = .decsB ↔ s.opk = true ∧ s.stream = false := by
  unfold State.running
  split <;> simp_all

theorem running_stream {s : State} : s.running = .decpS ∨ s.running = .decsS ↔ s.opk = true ∧ s.stream = true := by
  unfold State.running
  split <;> simp_all

theorem unitStep_size {s : State} (ho : s.opk = false) : unitStep s.running s = sizeStep s := by
  rw [running_eq_size.mpr ho]; rfl

/-- The unit step of a running decode is the pure step of R119 on the source's answer. -/
theorem unitStep_decode {s : State} (ho : s.opk = true) :
    unitStep s.running s =
      s.nextInput.elim s.fetched fun inp => s.fetched.apply (decStep s.strict s.stream s.loop inp) := by
  rw [← decodeStep_eq]
  cases hs : s.strict <;> cases hm : s.stream <;> simp [State.running, ho, hs, hm, unitStep, decStep]

/-! ### The policies -/

/-- The kinds a decode can fail with (R172 to R176). -/
def failureCodes : List Code := [.truncated, .overflow, .nonMinimal, .endOfInput, .unexpectedEnd]

/-- What a policy with this index cap can make of an answer (R112 to R117): accumulate a continuation byte below the cap, deliver
a value, or fail with the count of bytes read before this one or with this one. -/
inductive PolicyOutcome (cap : Nat) (l : Loop) : Input → StepOut → Prop where
  | goOn (b : Byte) (hc : contFlag b = true) (hi : l.idx.toNat < cap) : PolicyOutcome cap l (.byte b) (accumulate l b)
  | ok (b : Byte) : PolicyOutcome cap l (.byte b) (.done .ok (some (termValue l b)) (l.idx + 1#4))
  | failed (inp : Input) (c : Code) (n : BitVec 4) (hc : c ∈ failureCodes)
      (hn : n = l.idx ∨ n = l.idx + 1#4) : PolicyOutcome cap l inp (.done c none n)

theorem endOfSource_outcome (cap : Nat) (stream : Bool) (l : Loop) :
    PolicyOutcome cap l .eof (endOfSource stream l) := by
  unfold endOfSource
  split
  · exact .failed _ _ _ (by decide) (.inl rfl)
  · split
    · next h0 => exact .failed _ _ _ (by decide) (.inl h0.symm)
    · exact .failed _ _ _ (by decide) (.inl rfl)

theorem policyDecpB_outcome (l : Loop) (inp : Input) : PolicyOutcome 10 l inp (policyDecpB l inp) := by
  cases inp with
  | eof => exact endOfSource_outcome ..
  | byte b =>
    simp only [policyDecpB]
    split
    · exact .failed _ _ _ (by decide) (.inr rfl)
    · next hi =>
      split
      · split
        · next h9 =>
          have hidx : l.idx = 9#4 := BitVec.eq_of_toNat_eq h9.1
          exact .failed _ _ _ (by decide) (.inr (by rw [hidx]; rfl))
        · exact .ok b
      · next hc => exact .goOn b (by simpa using hc) (by omega)

theorem policyDecpS_outcome (l : Loop) (inp : Input) : PolicyOutcome 9 l inp (policyDecpS l inp) := by
  cases inp with
  | eof => exact endOfSource_outcome ..
  | byte b =>
    simp only [policyDecpS]
    split
    · split
      · exact .failed _ _ _ (by decide) (.inr rfl)
      · exact .ok b
    · next hc =>
      split
      · exact .failed _ _ _ (by decide) (.inr rfl)
      · next hi => exact .goOn b (by simpa using hc) (by omega)

theorem strictByte_outcome (l : Loop) (b : Byte) : PolicyOutcome 8 l (.byte b) (strictByte l b) := by
  unfold strictByte
  split
  · exact .failed _ _ _ (by decide) (.inr rfl)
  · next hcap =>
    split
    · split
      · exact .failed _ _ _ (by decide) (.inr rfl)
      · exact .ok b
    · next hc =>
      have hc : contFlag b = true := by simpa using hc
      exact .goOn b hc (by simp only [hc, and_true] at hcap; omega)

theorem policyDecsB_outcome (l : Loop) (inp : Input) : PolicyOutcome 8 l inp (policyDecsB l inp) := by
  cases inp with
  | eof => exact endOfSource_outcome ..
  | byte b => exact strictByte_outcome l b

theorem policyDecsS_outcome (l : Loop) (inp : Input) : PolicyOutcome 8 l inp (policyDecsS l inp) := by
  cases inp with
  | eof => exact endOfSource_outcome ..
  | byte b => exact strictByte_outcome l b

/-- The outcomes of the running decode's policy, with the cap of R116. -/
theorem decStep_outcome {s : State} (ho : s.opk = true) (l : Loop) (inp : Input) :
    PolicyOutcome (idxCap s.running) l inp (decStep s.strict s.stream l inp) := by
  unfold State.running
  cases hs : s.strict <;> cases hm : s.stream <;> rw [ho]
  · exact policyDecpB_outcome l inp
  · exact policyDecpS_outcome l inp
  · exact policyDecsB_outcome l inp
  · exact policyDecsS_outcome l inp

/-! ### What a unit step can do -/

/-- What the unit step of the running command can do: one constructor for each way. -/
inductive RunEffect (s : State) : State → Prop where
  | sized (ho : s.opk = false) : RunEffect s (sizeStep s)
  | blocked (ho : s.opk = true) (hin : s.nextInput = none) : RunEffect s s.fetched
  | advanced (b : Byte) (ho : s.opk = true) (hin : s.nextInput = some (.byte b)) (hc : contFlag b = true)
      (hi : s.idx.toNat < idxCap s.running) : RunEffect s (s.fetched.apply (accumulate s.loop b))
  | ok (b : Byte) (ho : s.opk = true) (hin : s.nextInput = some (.byte b)) :
      RunEffect s (s.fetched.finish .ok (some (termValue s.loop b)) (s.idx + 1#4))
  | failed (c : Code) (n : BitVec 4) (ho : s.opk = true) (hc : c ∈ failureCodes)
      (hn : n = s.idx ∨ n = s.idx + 1#4) : RunEffect s (s.fetched.finish c none n)

theorem unitStep_effect (s : State) : RunEffect s (unitStep s.running s) := by
  cases ho : s.opk with
  | false => rw [unitStep_size ho]; exact .sized ho
  | true =>
    rw [unitStep_decode ho]
    cases hin : s.nextInput with
    | none => exact .blocked ho hin
    | some inp =>
      have h := decStep_outcome ho s.loop inp
      simp only [Option.elim_some]
      generalize decStep s.strict s.stream s.loop inp = o at h
      cases h with
      | goOn b hc hi => exact .advanced b ho hin hc hi
      | ok b => exact .ok b ho hin
      | failed _ c n hc hn => exact .failed c n ho hc hn

/-- A command in phase RUN that answers a next state is the running one, and has done one of those things. -/
theorem exec_busy_effect {i : Instr} {s t : State} (hb : s.busy = true) (h : exec i s = .next t) : RunEffect s t := by
  rcases exec_next h with ⟨hb', -⟩ | ⟨-, rfl, rfl⟩
  · rw [hb] at hb'; cases hb'
  · exact unitStep_effect s

/-- The unit's turn in phase RUN. -/
theorem afterTurn_effect {s : State} (hb : s.busy = true) : RunEffect s (afterTurn s) := by
  rw [afterTurn, if_pos hb]
  exact unitStep_effect s

/-- The unit's turn outside phase RUN (R187). -/
theorem afterTurn_of_not_busy {s : State} (hb : s.busy = false) : afterTurn s = s := by
  simp [afterTurn, hb]

end Sys2Proof.Machine
end

section
/-! SUPPORT. The invariant of the machine, operation by operation (R12, R16, R18, R19, R24, R116). -/

namespace Sys2Proof.Machine

/-! ### The parts of the invariant -/

/-- The nine values of `STATUS` in the three phases (R12, R21, R170). -/
def legalStatuses : List (BitVec 8) :=
  [0x00#8, 0x80#8, 0x41#8, 0x42#8, 0x43#8, 0x44#8, 0x45#8, 0x46#8, 0x48#8]

theorem statusLegal_iff {s : State} : s.StatusLegal ↔ s.status ∈ legalStatuses := Iff.rfl

/-- The kinds the unit completes with (R170, R177). -/
def completionCodes : List Code := .ok :: .illegalCmd :: failureCodes

theorem completes_of_failure {c : Code} (h : c ∈ failureCodes) : c ∈ completionCodes :=
  List.mem_cons_of_mem _ (List.mem_cons_of_mem _ h)

/-- What each of the nine legal values of `STATUS` says of its fields (R12, R21). -/
theorem legal_status_fields :
    ∀ st ∈ legalStatuses, st.extractLsb' 4 2 = 0#2 ∧ (st.getLsbD 6 = true → st.getLsbD 7 = false) := by
  decide

theorem State.StatusLegal.reserved {s : State} (h : s.StatusLegal) : s.status.extractLsb' 4 2 = 0#2 :=
  (legal_status_fields _ (statusLegal_iff.mp h)).1

/-- `BUSY` and `DONE` are never both 1 (R12). -/
theorem State.StatusLegal.not_busy_of_done {s : State} (h : s.StatusLegal) (hd : s.done = true) : s.busy = false :=
  (legal_status_fields _ (statusLegal_iff.mp h)).2 hd

theorem State.StatusLegal.start {s : State} (h : s.StatusLegal) (w : Byte) : (s.start w).StatusLegal := by
  rw [statusLegal_iff, start_status, statusWith_of_reserved _ _ _ h.reserved]
  decide

/-- The status of each completion the unit gives (R170). -/
theorem completed_status_mem :
    ∀ c ∈ completionCodes,
      (BitVec.ofBool false ++ BitVec.ofBool true ++ 0#2 ++ c.bits : BitVec 8) ∈ legalStatuses := by
  decide

theorem State.StatusLegal.finish {s : State} (h : s.StatusLegal) {c : Code} (hc : c ∈ completionCodes)
    (v : Option Word) (n : BitVec 4) : (s.finish c v n).StatusLegal := by
  rw [statusLegal_iff, finish_status, statusWith_of_reserved _ _ _ h.reserved]
  exact completed_status_mem c hc

theorem idxCap_le_ten (i : Instr) : idxCap i ≤ 10 := by cases i <;> decide

/-- The registers of a start (R110): nothing read yet. -/
theorem State.LoopLegal.start (s : State) (w : Byte) : (s.start w).LoopLegal := by
  simp [State.LoopLegal]

theorem State.LatchesLegal.start (s : State) (i : Instr) : (s.start (encode i)).LatchesLegal := by
  intro ho
  obtain rfl : i = .size := start_running i s ▸ running_eq_size.mpr ho
  exact ⟨rfl, rfl⟩

/-- `IDX + 1` does not wrap below its cap (R19). -/
theorem toNat_succ_idx {n : BitVec 4} (h : n.toNat ≤ 10) : (n + 1#4).toNat = n.toNat + 1 := by
  rw [BitVec.toNat_add]
  simp only [BitVec.toNat_ofNat]
  omega

/-- A group of 7 bits at `SHIFT = n` stays below `2^(n + 7)` (R24 b). -/
theorem toNat_shl64_group_lt (b : Byte) (n : Nat) : (shl64 (group b) n).toNat < 2 ^ (n + 7) := by
  have hg : (group b).toNat < 2 ^ 7 := by
    simp only [group, BitVec.toNat_setWidth]
    omega
  calc (shl64 (group b) n).toNat ≤ (group b).toNat * 2 ^ n := by
        rw [shl64, BitVec.toNat_shiftLeft, Nat.shiftLeft_eq]; exact Nat.mod_le _ _
    _ < 2 ^ 7 * 2 ^ n := Nat.mul_lt_mul_of_pos_right hg (Nat.two_pow_pos n)
    _ = 2 ^ (n + 7) := by rw [Nat.pow_add, Nat.mul_comm]

/-- Accumulating below the cap keeps the loop registers legal (R24, R112, R116). -/
theorem State.LoopLegal.advance {s : State} (h : s.LoopLegal) (b : Byte) (hi : s.idx.toNat < idxCap s.running) :
    (s.fetched.apply (accumulate s.loop b)).LoopLegal := by
  obtain ⟨hshift, -, hacc⟩ := h
  have hcap := idxCap_le_ten s.running
  have hidx : (s.idx + 1#4).toNat = s.idx.toNat + 1 := toNat_succ_idx (by omega)
  have hshift' : (s.shift + 7#7).toNat = s.shift.toNat + 7 := by
    rw [BitVec.toNat_add]
    simp only [BitVec.toNat_ofNat]
    omega
  refine ⟨?_, ?_, fun _ => ?_⟩
  · change (s.shift + 7#7).toNat = 7 * (s.idx + 1#4).toNat
    omega
  · change (s.idx + 1#4).toNat ≤ idxCap s.running
    omega
  · change (s.acc ||| shl64 (group b) s.shift.toNat).toNat < 2 ^ (s.shift + 7#7).toNat
    rw [hshift', BitVec.toNat_or]
    exact Nat.or_lt_two_pow
      ((hacc (by omega)).trans (Nat.pow_lt_pow_right (by decide) (by omega)))
      (toNat_shl64_group_lt b _)

theorem bitlen_le_64 (v : Word) : bitlen v.toNat ≤ 64 := by
  unfold bitlen
  split
  · omega
  · next h => exact (Nat.log2_lt h).mpr v.isLt

/-- The size of a 64-bit value is at most 10 (R91). -/
theorem size_le_ten (v : Word) : size v ≤ 10 := by
  have h := bitlen_le_64 v
  unfold size ceilDiv
  split <;> omega

/-! ### The invariant after each operation -/

theorem State.Inv.start {s : State} (h : s.Inv) (i : Instr) : (s.start (encode i)).Inv := by
  obtain ⟨hst, -, -, hcount, hwf, hlen⟩ := h
  exact ⟨hst.start _, State.LoopLegal.start _ _, State.LatchesLegal.start _ _, hcount, hwf, hlen⟩

/-- A completion with a code the unit has and a count of at most 11 keeps the invariant (R114, R170). -/
theorem State.Inv.finish {s : State} (h : s.Inv) {c : Code} (hc : c ∈ completionCodes)
    (v : Option Word) {n : BitVec 4} (hn : n.toNat ≤ 11) : (s.finish c v n).Inv := by
  obtain ⟨hst, hloop, hlatch, -, hwf, hlen⟩ := h
  refine ⟨State.StatusLegal.finish hst hc v n, ?_, ?_, by simpa using hn, by simpa using hwf, ?_⟩
  · simpa [State.LoopLegal, State.running] using hloop
  · simpa [State.LatchesLegal] using hlatch
  · simpa [State.LengthLegal] using hlen

/-- The source's answers to come are no part of the invariant. -/
theorem State.Inv.fetched {s : State} (h : s.Inv) : s.fetched.Inv := h

/-- Under the invariant a unit step completes with at most one byte more than the cap, so at most 11 (R16, R116). -/
theorem State.Inv.count_le {s : State} (h : s.Inv) {n : BitVec 4} (hn : n = s.idx ∨ n = s.idx + 1#4) : n.toNat ≤ 11 := by
  obtain ⟨-, ⟨-, hidx, -⟩, -⟩ := h
  have hcap := idxCap_le_ten s.running
  rcases hn with rfl | rfl
  · omega
  · rw [toNat_succ_idx (by omega)]; omega

theorem State.Inv.of_runEffect {s t : State} (h : s.Inv) (ht : RunEffect s t) : t.Inv := by
  cases ht with
  | sized =>
    exact h.finish (by decide) none (by rw [BitVec.toNat_ofNat]; have := size_le_ten s.valIn; omega)
  | blocked => exact h.fetched
  | advanced b _ _ _ hi =>
    obtain ⟨hst, hloop, hlatch, hcount, hwf, hlen⟩ := h
    exact ⟨hst, hloop.advance b hi, hlatch, hcount, hwf, hlen⟩
  | ok => exact h.fetched.finish (by decide) _ (h.count_le (.inr rfl))
  | failed c n _ hc hn =>
    exact h.fetched.finish (completes_of_failure hc) _ (h.count_le hn)

theorem State.Inv.of_afterTurn {s : State} (h : s.Inv) : (afterTurn s).Inv := by
  cases hb : s.busy with
  | false => rwa [afterTurn_of_not_busy hb]
  | true => exact h.of_runEffect (afterTurn_effect hb)

theorem State.Inv.applyReset {s : State} (h : s.Inv) : s.applyReset.Inv := by
  obtain ⟨-, -, -, -, hwf, hlen, -, hbelow⟩ := h
  exact ⟨by simp [State.StatusLegal], by simp [State.LoopLegal], by simp [State.LatchesLegal], by simp, hwf,
    hlen, Nat.two_pow_pos _, hbelow⟩

theorem State.Inv.of_onlyStream {s t : State} (h : s.Inv) (ht : OnlyStream s t) : t.Inv := by
  obtain ⟨q, rfl⟩ := ht
  exact h

theorem State.Inv.store {s : State} (h : s.Inv) {off : Nat} (b : Byte) (ho : s.hasOffset off = true) :
    ({ s with buf := Memory.write s.buf off b } : State).Inv := by
  obtain ⟨hst, hloop, hlatch, hcount, hwf, hw, hbuf, hbelow⟩ := h
  exact ⟨hst, hloop, hlatch, hcount, Memory.wf_write b hwf, hw, hbuf,
    Memory.below_write b hbelow (by simpa [State.hasOffset] using ho)⟩

theorem State.Inv.of_hostEffect {s t : State} {rest : List HostAct} {a : HostAct} (h : s.Inv) (ht : HostEffect s rest a t) :
    t.Inv := by
  have hrest : ({ s with host := rest } : State).Inv := h
  cases ht with
  | pass => exact hrest.of_afterTurn
  | waitOver => exact hrest
  | waiting => exact h.of_afterTurn
  | command v i => exact hrest.start i
  | illegal => exact hrest.finish (by decide) none (by decide)
  | writeValIn => exact hrest
  | writeBufLen v =>
    obtain ⟨hst, hloop, hlatch, hcount, hwf, hw, -, hbelow⟩ := h
    exact ⟨hst, hloop, hlatch, hcount, hwf, hw, Nat.mod_lt _ (Nat.two_pow_pos _), hbelow⟩
  | ignored => exact hrest
  | read => exact hrest
  | store off b ho => exact hrest.store b ho
  | load => exact hrest
  | attach => exact hrest
  | takeStream => exact hrest.of_onlyStream (takeNext_only _)
  | reset => exact hrest.applyReset

/-- Every step keeps the invariant. -/
theorem State.Inv.of_step {s t : State} (h : s.Inv) (hst : step s = .next t) : t.Inv := by
  rcases step_cases hst with ⟨-, rfl⟩ | ⟨a, rest, -, he⟩
  · exact h.of_afterTurn
  · exact h.of_hostEffect he

/-! ### What a step leaves alone -/

theorem RunEffect.lenW {s t : State} (h : RunEffect s t) : t.lenW = s.lenW := by
  cases h <;> simp [sizeStep, State.fetched, accumulate]

theorem afterTurn_lenW (s : State) : (afterTurn s).lenW = s.lenW := by
  cases hb : s.busy with
  | false => rw [afterTurn_of_not_busy hb]
  | true => exact (afterTurn_effect hb).lenW

theorem OnlyStream.lenW {s t : State} (h : OnlyStream s t) : t.lenW = s.lenW := by
  obtain ⟨q, rfl⟩ := h; rfl

theorem step_lenW {s t : State} (h : step s = .next t) : t.lenW = s.lenW := by
  rcases step_cases h with ⟨-, rfl⟩ | ⟨a, rest, -, he⟩
  · exact afterTurn_lenW s
  · cases he with
    | pass => exact afterTurn_lenW _
    | waiting => exact afterTurn_lenW s
    | takeStream => exact (takeNext_only _).lenW
    | illegal => exact finish_lenW ..
    | _ => rfl

end Sys2Proof.Machine

open Sys2Proof Sys2Proof.Machine

/-- Settles O4: each part of the invariant, operation by operation. -/
theorem stepKeepsInvariant : Obligations.StepKeepsInvariant :=
  fun _ _ hinv hstep => ⟨hinv.of_step hstep, step_lenW hstep⟩
end

section
/-! SUPPORT. What a running buffer decode has read (R17, R24 c), operation by operation. -/

namespace Sys2Proof.Machine

/-! ### The logical value of one byte more -/

theorem valueFrom_append (k : Nat) (xs ys : List Byte) :
    valueFrom k (xs ++ ys) = valueFrom k xs + valueFrom (k + xs.length) ys := by
  induction xs generalizing k with
  | nil => simp [valueFrom]
  | cons x xs ih =>
    rw [List.cons_append, valueFrom, valueFrom, ih (k + 1), List.length_cons,
      show k + 1 + xs.length = k + (xs.length + 1) by omega, Nat.add_assoc]

theorem bufBytes_length (s : State) (n : Nat) : (s.bufBytes n).length = n := by
  simp [State.bufBytes]

theorem bufBytes_succ (s : State) (n : Nat) : s.bufBytes (n + 1) = s.bufBytes n ++ [Memory.read s.buf n] := by
  simp [State.bufBytes, List.range_succ]

theorem toNat_group (b : Byte) : (group b).toNat = (b.extractLsb' 0 7).toNat := by
  rw [group, BitVec.toNat_setWidth]
  omega

/-- The byte after the first `n` adds its group at `2^(7n)` (R61). -/
theorem logicalValue_bufBytes_succ (s : State) (n : Nat) :
    logicalValue (s.bufBytes (n + 1)) =
      logicalValue (s.bufBytes n) + (group (Memory.read s.buf n)).toNat * 2 ^ (7 * n) := by
  rw [logicalValue, logicalValue, bufBytes_succ, valueFrom_append, bufBytes_length, toNat_group]
  simp [valueFrom]

/-! ### `ACC` after an accumulate -/

/-- What stands below bit `n` and what is shifted up by `n` have no bit in common. -/
theorem and_shl64_eq_zero {a g : Word} {n : Nat} (h : a.toNat < 2 ^ n) : a &&& shl64 g n = 0#64 := by
  refine BitVec.eq_of_getLsbD_eq fun i hi => ?_
  rw [BitVec.getLsbD_and, shl64, BitVec.getLsbD_shiftLeft]
  rcases Nat.lt_or_ge i n with hin | hin
  · simp [hin]
  · have : a.getLsbD i = false := by
      rw [← BitVec.testBit_toNat]
      exact Nat.testBit_lt_two_pow (h.trans_le (Nat.pow_le_pow_right (by decide) hin))
    simp [this]

/-- A group entered above what `ACC` holds is added to it, cut to 64 bits (R112). -/
theorem toNat_or_shl64 {a g : Word} {n : Nat} (h : a.toNat < 2 ^ n) :
    (a ||| shl64 g n).toNat = (a.toNat + g.toNat * 2 ^ n) % 2 ^ 64 := by
  rw [← BitVec.add_eq_or_of_and_eq_zero _ _ (and_shl64_eq_zero h), BitVec.toNat_add, shl64,
    BitVec.toNat_shiftLeft, Nat.shiftLeft_eq, Nat.add_mod_mod]

/-! ### The record of a buffer decode after each operation -/

theorem State.BufferRead.of_not_busy {s : State} (h : s.busy = false) : s.BufferRead := fun hb => by simp [h] at hb

/-- At a start no byte has been read. -/
theorem State.BufferRead.start (s : State) (w : Byte) : (s.start w).BufferRead := fun _ _ _ => by
  simp [State.bufBytes, logicalValue, valueFrom]

/-- Reading one continuation byte more (R112). -/
theorem State.BufferRead.advance {s : State} (hinv : s.Inv) (hr : s.BufferRead) (hb : s.busy = true) {b : Byte}
    (hin : s.nextInput = some (.byte b)) (hc : contFlag b = true) (hi : s.idx.toNat < idxCap s.running) :
    (s.fetched.apply (accumulate s.loop b)).BufferRead := by
  intro _ (ho : s.opk = true) (hs : s.stream = false)
  obtain ⟨-, ⟨hshift, -, hbound⟩, -⟩ := hinv
  obtain ⟨-, hcont, hacc⟩ := hr hb ho hs
  obtain ⟨hlt, rfl⟩ := buffer_byte hs hin
  have hcap := idxCap_le_ten s.running
  have hidx : (s.idx + 1#4).toNat = s.idx.toNat + 1 := toNat_succ_idx (by omega)
  change (s.idx + 1#4).toNat ≤ s.bufLen ∧
    (∀ k, k < (s.idx + 1#4).toNat → contFlag (Memory.read s.buf k) = true) ∧
    (s.acc ||| shl64 (group (Memory.read s.buf s.idx.toNat)) s.shift.toNat).toNat =
      logicalValue (s.bufBytes (s.idx + 1#4).toNat) % 2 ^ 64
  rw [hidx]
  refine ⟨hlt, fun k hk => ?_, ?_⟩
  · rcases Nat.lt_succ_iff_lt_or_eq.mp hk with hk | rfl
    · exact hcont k hk
    · exact hc
  · rw [toNat_or_shl64 (hbound (by omega)), hacc, logicalValue_bufBytes_succ, hshift, Nat.mod_add_mod]

theorem State.BufferRead.of_runEffect {s t : State} (hinv : s.Inv) (hr : s.BufferRead) (hb : s.busy = true)
    (ht : RunEffect s t) : t.BufferRead := by
  cases ht with
  | sized => exact .of_not_busy (finish_busy ..)
  | blocked => exact hr
  | advanced b _ hin hc hi => exact hr.advance hinv hb hin hc hi
  | ok => exact .of_not_busy (finish_busy ..)
  | failed => exact .of_not_busy (finish_busy ..)

theorem State.BufferRead.of_afterTurn {s : State} (hinv : s.Inv) (hr : s.BufferRead) : (afterTurn s).BufferRead := by
  cases hb : s.busy with
  | false => rwa [afterTurn_of_not_busy hb]
  | true => exact hr.of_runEffect hinv hb (afterTurn_effect hb)

/-- A store beyond the bytes that a buffer operation holds changes none of the bytes read (R48). -/
theorem State.BufferRead.store {s : State} (hinv : s.Inv) (hr : s.BufferRead) {off : Nat} (b : Byte)
    (hh : s.holdsBuffer off = false) : ({ s with buf := Memory.write s.buf off b } : State).BufferRead := by
  intro (hb : s.busy = true) (ho : s.opk = true) (hs : s.stream = false)
  obtain ⟨-, ⟨-, hidx, -⟩, -⟩ := hinv
  obtain ⟨hlen, hcont, hacc⟩ := hr hb ho hs
  have hcap := idxCap_le_ten s.running
  have hoff : s.idx.toNat ≤ off := by
    have : ¬ off < min s.bufLen 11 := by
      simpa [State.holdsBuffer, hb, ho, hs] using hh
    omega
  have hread : ∀ k, k < s.idx.toNat → Memory.read (Memory.write s.buf off b) k = Memory.read s.buf k :=
    fun k hk => Memory.read_write_other _ b (by omega)
  have hbytes : ({ s with buf := Memory.write s.buf off b } : State).bufBytes s.idx.toNat = s.bufBytes s.idx.toNat :=
    List.map_congr_left fun k hk => hread k (List.mem_range.mp hk)
  refine ⟨hlen, fun k hk => ?_, ?_⟩
  · rw [hread k hk]; exact hcont k hk
  · rw [hbytes]; exact hacc

theorem State.BufferRead.of_onlyStream {s t : State} (hr : s.BufferRead) (ht : OnlyStream s t) : t.BufferRead := by
  obtain ⟨q, rfl⟩ := ht
  exact hr

theorem State.BufferRead.of_hostEffect {s t : State} {rest : List HostAct} {a : HostAct} (hinv : s.Inv)
    (hr : s.BufferRead) (ht : HostEffect s rest a t) : t.BufferRead := by
  have hinv' : ({ s with host := rest } : State).Inv := hinv
  have hrest : ({ s with host := rest } : State).BufferRead := hr
  cases ht with
  | pass => exact hrest.of_afterTurn hinv'
  | waitOver => exact hrest
  | waiting => exact hr.of_afterTurn hinv
  | command => exact .start _ _
  | illegal => exact .of_not_busy (finish_busy ..)
  | writeValIn => exact hrest
  | writeBufLen v hb => exact .of_not_busy hb
  | ignored => exact hrest
  | read => exact hrest
  | store off b _ hh => exact hrest.store hinv' b hh
  | load => exact hrest
  | attach => exact hrest
  | takeStream => exact hrest.of_onlyStream (takeNext_only _)
  | reset => exact .of_not_busy (applyReset_busy _)

end Sys2Proof.Machine

open Sys2Proof Sys2Proof.Machine

/-- Settles O5: what has been read is unchanged by the host, and grows by one byte at an accumulate. -/
theorem stepKeepsBufferRead : Obligations.StepKeepsBufferRead := by
  unfold Obligations.StepKeepsBufferRead
  intro s t hinv hread hstep
  rcases step_cases hstep with ⟨-, rfl⟩ | ⟨a, rest, -, he⟩
  · exact hread.of_afterTurn hinv
  · exact hread.of_hostEffect hinv he
end

section
/-! SUPPORT. What a unit step leaves alone, and how it moves on (R12 to R16, R22, R45, R47, R182). -/

namespace Sys2Proof.Machine

/-- A unit step changes no operand, no byte of the buffer and nothing of the host (R13, R14, R26, R45). -/
theorem RunEffect.leaves_operands {s t : State} (h : RunEffect s t) : s.SameOperands t ∧ t.host = s.host := by
  cases h with
  | sized => simp [State.SameOperands, sizeStep]
  | blocked => simp [State.SameOperands, State.fetched]
  | advanced => simp [State.SameOperands, State.fetched, accumulate]
  | ok => simp [State.SameOperands, State.fetched]
  | failed => simp [State.SameOperands, State.fetched]

/-- A unit step completes, or keeps the result registers (R15, R16, R114). -/
theorem RunEffect.completes_or_keeps_results {s t : State} (h : RunEffect s t) :
    (t.busy = false ∧ t.done = true) ∨ (t.value = s.value ∧ t.count = s.count) := by
  cases h with
  | sized => exact .inl ⟨finish_busy .., finish_done ..⟩
  | blocked => exact .inr ⟨rfl, rfl⟩
  | advanced => exact .inr ⟨rfl, rfl⟩
  | ok => exact .inl ⟨finish_busy .., finish_done ..⟩
  | failed => exact .inl ⟨finish_busy .., finish_done ..⟩

/-- The unit's turn changes the result registers only by completing the running operation. -/
theorem afterTurn_completes {s : State} (h : ¬ ((afterTurn s).value = s.value ∧ (afterTurn s).count = s.count)) :
    (afterTurn s).busy = false ∧ (afterTurn s).done = true ∧ s.busy = true := by
  cases hb : s.busy with
  | false => rw [afterTurn_of_not_busy hb] at h; exact absurd ⟨rfl, rfl⟩ h
  | true =>
    obtain ⟨hb', hd⟩ := (afterTurn_effect hb).completes_or_keeps_results.resolve_right h
    exact ⟨hb', hd, rfl⟩

/-- A unit step ends the operation, or moves on by one continuation byte, or waits for the stream (R22, R47, R116). -/
theorem RunEffect.ends_or_advances {s t : State} (hinv : s.Inv) (h : RunEffect s t) :
    (t.busy = false ∧ t.done = true) ∨
    (t.idx.toNat = s.idx.toNat + 1 ∧ t.shift.toNat = s.shift.toNat + 7 ∧
      ∃ b, s.nextInput = some (.byte b) ∧ b.getLsbD 7 = true) ∨
    (s.stream = true ∧ s.nextInput = none ∧ t = s.streamTaken) := by
  cases h with
  | sized => exact .inl ⟨finish_busy .., finish_done ..⟩
  | blocked _ hin =>
    have hs := stream_of_nextInput_none hin
    exact .inr (.inr ⟨hs, hin, fetched_of_stream hs⟩)
  | advanced b _ hin hc hi =>
    obtain ⟨-, hloop, -⟩ := hinv
    obtain ⟨hshift', -, -⟩ := hloop.advance b hi
    obtain ⟨hshift, -, -⟩ := hloop
    have hcap := idxCap_le_ten s.running
    have hidx : (s.fetched.apply (accumulate s.loop b)).idx.toNat = s.idx.toNat + 1 :=
      toNat_succ_idx (n := s.idx) (by omega)
    exact .inr (.inl ⟨hidx, by omega, b, hin, hc⟩)
  | ok => exact .inl ⟨finish_busy .., finish_done ..⟩
  | failed => exact .inl ⟨finish_busy .., finish_done ..⟩

end Sys2Proof.Machine

open Sys2Proof Sys2Proof.Machine

/-- Settles O31: a start and each kind of unit step. -/
theorem commandsLeaveOperands : Obligations.CommandsLeaveOperands := by
  unfold Obligations.CommandsLeaveOperands
  intro i s t h
  cases hb : s.busy with
  | true => exact (exec_busy_effect hb h).leaves_operands
  | false =>
    rcases exec_next h with ⟨-, rfl⟩ | ⟨hb', -⟩
    · simp [State.SameOperands]
    · rw [hb] at hb'; cases hb'

/-- Settles O34: the ways of `HostEffect` that write a result register are a completion and reset. -/
theorem resultsKeptUntilCompletion : Obligations.ResultsKeptUntilCompletion := by
  unfold Obligations.ResultsKeptUntilCompletion
  intro s t hstep hne
  rw [ne_eq, ne_eq, ← not_and_or] at hne
  rcases step_cases hstep with ⟨-, rfl⟩ | ⟨a, rest, hhost, he⟩
  · obtain ⟨hb, hd, hrun⟩ := afterTurn_completes hne
    exact .inl ⟨hb, hd, .inl hrun⟩
  · cases he with
    | pass =>
      obtain ⟨hb, hd, hrun⟩ := afterTurn_completes (s := { s with host := rest }) hne
      exact .inl ⟨hb, hd, .inl hrun⟩
    | waiting =>
      obtain ⟨hb, hd, hrun⟩ := afterTurn_completes hne
      exact .inl ⟨hb, hd, .inl hrun⟩
    | illegal v => exact .inl ⟨finish_busy .., finish_done .., .inr ⟨v, rest, hhost⟩⟩
    | reset => exact .inr ⟨rest, hhost⟩
    | takeStream =>
      obtain ⟨q, hq⟩ := takeNext_only { s with host := rest }
      rw [hq] at hne
      exact absurd ⟨rfl, rfl⟩ hne
    | _ => exact absurd ⟨rfl, rfl⟩ hne

/-- Settles O35: in phase DONE the unit's turn does nothing, and no host action but a `CMD` write and reset writes `STATUS`. -/
theorem doneKeptUntilCommandOrReset : Obligations.DoneKeptUntilCommandOrReset := by
  unfold Obligations.DoneKeptUntilCommandOrReset
  intro s t hinv hd hstep
  obtain ⟨hst, -⟩ := hinv
  have hb : s.busy = false := State.StatusLegal.not_busy_of_done hst hd
  rcases step_cases hstep with ⟨-, rfl⟩ | ⟨a, rest, hhost, he⟩
  · rw [afterTurn_of_not_busy hb]; exact .inl ⟨hd, rfl, rfl, rfl⟩
  · cases he with
    | pass => rw [afterTurn_of_not_busy (s := { s with host := rest }) hb]; exact .inl ⟨hd, rfl, rfl, rfl⟩
    | waiting hd' => rw [hd] at hd'; cases hd'
    | command v => exact .inr (.inl ⟨v, rest, hhost⟩)
    | illegal v => exact .inr (.inl ⟨v, rest, hhost⟩)
    | reset => exact .inr (.inr ⟨rest, hhost⟩)
    | takeStream =>
      obtain ⟨q, hq⟩ := takeNext_only { s with host := rest }
      rw [hq]; exact .inl ⟨hd, rfl, rfl, rfl⟩
    | _ => exact .inl ⟨hd, rfl, rfl, rfl⟩

/-- Settles O42: the kinds of unit step one by one, with the invariant for the registers' widths. -/
theorem runStepEndsOrAdvances : Obligations.RunStepEndsOrAdvances :=
  fun _ _ _ hinv hb h => (exec_busy_effect hb h).ends_or_advances hinv
end

section
/-! SUPPORT. Reset, the host's turns, and what its accesses return (R11 to R16, R27, R30, R40). -/

namespace Sys2Proof.Machine

/-! ### Whose turn it is -/

/-- With an action to come, the step is that action (log 4). -/
theorem step_of_host {s : State} {a : HostAct} {rest : List HostAct} (h : s.host = a :: rest) :
    step s = hostTurn a { s with host := rest } := by
  simp [step, turn, h]

theorem unitTurn_of_busy {s : State} (hb : s.busy = true) : unitTurn s = exec s.running s := by
  simp [unitTurn, hb]

/-- A `CMD` write of a legal word outside phase RUN runs its command (R11). -/
theorem step_cmdWrite {s : State} {w : Byte} {rest : List HostAct} {i : Instr} (hb : s.busy = false)
    (hhost : s.host = .write 0 w.toNat :: rest) (hi : decodeCmd w = .command i) :
    step s = exec i { s with host := rest } := by
  have hb' : ({ s with host := rest } : State).busy = false := hb
  simp [step_of_host hhost, hostTurn, regWrite, cmdWrite, hb', hi]

/-- Asked for outside phase RUN, a command starts (R110). -/
theorem exec_of_not_busy (i : Instr) {s : State} (hb : s.busy = false) : exec i s = .next (s.start (encode i)) := by
  simp [exec_eq, operate, hb]

theorem decodeCmd_encode (i : Instr) : decodeCmd (encode i) = .command i := by cases i <;> rfl

theorem withFetchWord_encode (s : State) (i : Instr) : s.withFetchWord 8 (encode i).toNat = s.placeCommand (encode i) := by
  rw [State.withFetchWord, Nat.mod_eq_of_lt (encode i).isLt, BitVec.ofNat_toNat, BitVec.setWidth_eq]

/-! ### Register accesses -/

theorem step_read {s : State} {no : Nat} {rest : List HostAct} (h : s.host = .read no :: rest) :
    step s = .next { s with host := rest, hostRead := s.regRead no } :=
  step_of_host h

/-- `CMD` and the numbers without a register read as 0 (R27). -/
theorem regRead_absent (s : State) {no : Nat} (h : no = 0 ∨ 6 ≤ no) : s.regRead no = 0 := by
  rcases h with rfl | h
  · rfl
  · obtain ⟨n, rfl⟩ := Nat.exists_eq_add_of_le' h
    rfl

/-- Only the numbers of `CMD`, `VAL_IN` and `BUF_LEN` take a write (R27). -/
theorem regWrite_ignored (s : State) {no : Nat} (v : Nat) (h0 : no ≠ 0) (h2 : no ≠ 2) (h3 : no ≠ 3) :
    regWrite no v s = .next s := by
  unfold regWrite
  split
  · exact absurd rfl h0
  · exact absurd rfl h2
  · exact absurd rfl h3
  · rfl

/-- A read of `STATUS` shows `BUSY`, `DONE` and `CODE`, and the reserved bits as 0 (R12). -/
theorem statusRead_fields (s : State) :
    s.statusRead.getLsbD 7 = s.busy ∧ s.statusRead.getLsbD 6 = s.done ∧ s.statusRead.extractLsb' 4 2 = 0#2 ∧
      s.statusRead.extractLsb' 0 4 = s.code := by
  have mask : ∀ st : BitVec 8,
      (st &&& 0xCF#8).getLsbD 7 = st.getLsbD 7 ∧ (st &&& 0xCF#8).getLsbD 6 = st.getLsbD 6 ∧
        (st &&& 0xCF#8).extractLsb' 4 2 = 0#2 ∧ (st &&& 0xCF#8).extractLsb' 0 4 = st.extractLsb' 0 4 := by
    decide
  exact mask s.status

/-! ### Reset -/

section
variable (w : Nat)

@[simp] theorem resetWith_busy : (State.resetWith w).busy = false := by rw [State.busy, resetWith_status]; rfl
@[simp] theorem resetWith_done : (State.resetWith w).done = false := by rw [State.done, resetWith_status]; rfl
@[simp] theorem resetWith_code : (State.resetWith w).code = 0#4 := by rw [State.code, resetWith_status]; rfl
@[simp] theorem resetWith_phase : (State.resetWith w).phase = .idle := by simp [State.phase]

theorem resetWith_regRead (no : Nat) : (State.resetWith w).regRead no = 0 := by
  unfold State.regRead
  split
  · rw [State.statusRead, resetWith_status]; rfl
  all_goals rfl

end

/-- The invariant at reset, for every width that R4 allows. -/
theorem State.Inv.resetWith {w : Nat} (hw : 4 ≤ w) : (State.resetWith w).Inv := by
  refine ⟨by simp [State.StatusLegal], by simp [State.LoopLegal], by simp [State.LatchesLegal], by simp, rfl, ?_⟩
  exact ⟨hw, Nat.two_pow_pos w, rfl⟩

theorem State.BufferRead.resetWith (w : Nat) : (State.resetWith w).BufferRead := .of_not_busy (resetWith_busy w)

end Sys2Proof.Machine

open Sys2Proof Sys2Proof.Machine

/-- Settles O1: field by field, and every register number. -/
theorem resetRegisters : Obligations.ResetRegisters :=
  ⟨rfl, fun w => ⟨rfl, rfl, resetWith_phase w, resetWith_code w, rfl, rfl, rfl, rfl, rfl, rfl, rfl, rfl, rfl, rfl,
    resetWith_regRead w⟩⟩

/-- Settles O3: `State.reset` is the width 32. -/
theorem invariantHoldsAtReset : Obligations.InvariantHoldsAtReset :=
  ⟨fun w hw => ⟨.resetWith hw, .resetWith w⟩, .resetWith (by decide), .resetWith _⟩

/-- Settles O10: each of the turns that runs a command. -/
theorem stepRunsTheCommand : Obligations.StepRunsTheCommand := by
  unfold Obligations.StepRunsTheCommand
  refine ⟨fun s w rest i => step_cmdWrite, fun s hb hhost => ?_, fun s rest hb hhost => ?_,
    fun s rest hb hd hhost => ?_⟩
  · rw [← unitTurn_of_busy hb]
    simp [step, turn, hhost]
  · rw [step_of_host hhost]
    exact unitTurn_of_busy hb
  · have hd' : ({ s with host := rest } : State).done = false := hd
    rw [step_of_host hhost, ← unitTurn_of_busy hb]
    simp [hostTurn, hd', ← hhost]

/-- Settles O11: the placed word is a `CMD` write outside phase RUN. -/
theorem placedWordRunsNext : Obligations.PlacedWordRunsNext := by
  unfold Obligations.PlacedWordRunsNext
  intro s i
  rw [withFetchWord_encode]
  exact step_cmdWrite (placeCommand_busy s _) (placeCommand_host s _) (decodeCmd_encode i)

/-- Settles O36: reads, ignored writes, and writes of the operand registers. -/
theorem registerAccess : Obligations.RegisterAccess := by
  unfold Obligations.RegisterAccess
  refine ⟨fun s no rest h => ⟨s.regRead no, step_read h, regRead_absent s⟩, fun s no v rest h hno => ?_,
    fun s v rest h hb => ?_, fun s n rest h hn hb => ?_⟩
  · rw [step_of_host h]
    exact regWrite_ignored _ v (by omega) (by omega) (by omega)
  · have hb' : ({ s with host := rest } : State).busy = false := hb
    simp [step_of_host h, hostTurn, regWrite, hb']
  · have hb' : ({ s with host := rest } : State).busy = false := hb
    simp [step_of_host h, hostTurn, regWrite, hb', Nat.mod_eq_of_lt hn]

/-- Settles O37: the registers by number, and the byte at an offset. -/
theorem hostReads : Obligations.HostReads := by
  unfold Obligations.HostReads
  refine ⟨fun s no rest h => ⟨s.regRead no, step_read h, ?_, ?_, ?_, ?_, ?_⟩,
    fun s off rest h => ⟨fun hoff => ?_, fun hoff => ?_⟩⟩
  · rintro rfl; exact ⟨s.statusRead, rfl, statusRead_fields s⟩
  · rintro rfl; rfl
  · rintro rfl; rfl
  · rintro rfl; rfl
  · rintro rfl; rfl
  · simp [step_of_host h, hostTurn, State.hasOffset, hoff]
  · simp [step_of_host h, hostTurn, State.hasOffset, Nat.not_lt.mpr hoff]
end

section
/-! SUPPORT. Two units that run the same command on the same operands and source (R6, R25): a relation kept by every step. -/

namespace Sys2Proof.Machine

/-! ### Runs -/

theorem run_succ {s t : State} (k : Nat) (h : step s = .next t) : core.run (k + 1) s = core.run k t := by
  have h' : core.step s = .next t := h
  simp only [Host.Core.run, h']

/-- With no action of the host to come, a step is the unit's turn. -/
theorem step_of_no_host {s : State} (h : s.host = []) : step s = .next (afterTurn s) := by
  simp [step, turn, h, unitTurn_eq, afterTurn]

/-- The step that issues a command starts it. -/
theorem step_of_issues {s : State} {i : Instr} (h : s.Issues i) :
    step s = .next ({ s with host := [] }.start (encode i)) := by
  obtain ⟨hb, hhost⟩ := h
  rw [step_cmdWrite hb hhost (decodeCmd_encode i)]
  exact exec_of_not_busy i hb

/-! ### The relation -/

/-- Two units left alone with the same command, at the same point of it: the same fields of `STATUS`, latches and loop registers,
the operands and source that the command reads, and, once completed, the same results where they are defined. -/
structure SameCourse (i : Instr) (s t : State) : Prop where
  host : s.host = [] ∧ t.host = []
  running : s.running = i
  busy : s.busy = t.busy
  done : s.done = t.done
  code : s.code = t.code
  opk : s.opk = t.opk
  strict : s.strict = t.strict
  stream : s.stream = t.stream
  loop : s.loop = t.loop
  valIn : s.opk = false → s.valIn = t.valIn
  buffer : s.opk = true → s.stream = false → s.bufLen = t.bufLen ∧ s.buf = t.buf
  source : s.opk = true → s.stream = true → s.strm = t.strm ∧ s.strmAfter = t.strmAfter
  count : s.done = true → s.count = t.count
  value : s.done = true → s.opk = true → s.code = Code.ok.bits → s.value = t.value

variable {i : Instr} {s t : State}

/-- A source that both units read alike answers alike (R111). -/
theorem SameCourse.nextInput (h : SameCourse i s t) (ho : s.opk = true) : s.nextInput = t.nextInput := by
  obtain ⟨-, -, hidx⟩ := Loop.mk.inj h.loop
  cases hs : s.stream with
  | false =>
    obtain ⟨hlen, hbuf⟩ := h.buffer ho hs
    rw [nextInput_buffer hs, nextInput_buffer (h.stream ▸ hs), bufferNext, bufferNext, hlen, hbuf, hidx]
  | true =>
    obtain ⟨hstrm, hafter⟩ := h.source ho hs
    simp only [State.nextInput, ← h.stream, hs, if_true, hstrm, hafter]

theorem SameCourse.fetched (h : SameCourse i s t) : SameCourse i s.fetched t.fetched where
  __ := h
  source ho hs := by
    obtain ⟨hstrm, hafter⟩ := h.source ho hs
    exact ⟨by simp only [State.fetched, hstrm, h.stream], hafter⟩

theorem SameCourse.goOn (h : SameCourse i s t) (l : Loop) : SameCourse i (s.apply (.goOn l)) (t.apply (.goOn l)) where
  __ := h
  loop := rfl

/-- The same completion in both units; its value is the same where the code is `OK` of a decode. -/
theorem SameCourse.finish (h : SameCourse i s t) (c : Code) (v : Option Word) (n : BitVec 4)
    (hv : s.opk = true → c = .ok → v.isSome) : SameCourse i (s.finish c v n) (t.finish c v n) where
  host := by simpa using h.host
  running := by simpa [State.running] using h.running
  busy := by simp
  done := by simp
  code := by simp
  opk := by simpa using h.opk
  strict := by simpa using h.strict
  stream := by simpa using h.stream
  loop := by simpa using h.loop
  valIn := by simpa using h.valIn
  buffer := by simpa using h.buffer
  source := by simpa using h.source
  count := by simp
  value _ ho hcode := by
    have hc : c = .ok := by cases c <;> simp_all [Code.bits]
    obtain ⟨x, rfl⟩ := Option.isSome_iff_exists.mp (hv (by simpa using ho) hc)
    rfl

/-- A decode that completes `OK` delivers a value (R113, R114). -/
theorem decStep_ok_value (ho : s.opk = true) {inp : Input} {v : Option Word} {n : BitVec 4}
    (h : decStep s.strict s.stream s.loop inp = .done .ok v n) : v.isSome := by
  have hout := decStep_outcome ho s.loop inp
  rw [h] at hout
  cases hout with
  | ok => rfl
  | failed _ _ _ hc => exact absurd hc (by decide)

/-- The same unit step on both sides: the same answer, so the same outcome of the same policy (R119). -/
theorem SameCourse.unitStep (h : SameCourse i s t) : SameCourse i (unitStep s.running s) (unitStep t.running t) := by
  cases ho : s.opk with
  | false =>
    rw [unitStep_size ho, unitStep_size (h.opk ▸ ho), sizeStep, sizeStep, ← h.valIn ho]
    exact h.finish _ _ _ (by simp [ho])
  | true =>
    rw [unitStep_decode ho, unitStep_decode (h.opk ▸ ho), ← h.nextInput ho, ← h.strict, ← h.stream, ← h.loop]
    cases s.nextInput with
    | none => exact h.fetched
    | some inp =>
      simp only [Option.elim_some]
      cases hout : decStep s.strict s.stream s.loop inp with
      | goOn l => exact h.fetched.goOn l
      | done c v n =>
        exact h.fetched.finish c v n fun _ hc => decStep_ok_value ho (hc ▸ hout)

theorem SameCourse.afterTurn (h : SameCourse i s t) : SameCourse i (afterTurn s) (afterTurn t) := by
  cases hb : s.busy with
  | false => rwa [afterTurn_of_not_busy hb, afterTurn_of_not_busy (h.busy ▸ hb)]
  | true =>
    rw [Machine.afterTurn, Machine.afterTurn, if_pos hb, if_pos (h.busy ▸ hb)]
    exact h.unitStep

/-- Two units on the same course stay on it, however many steps they take. -/
theorem SameCourse.run (h : SameCourse i s t) (k : Nat) :
    ∃ u u' : State, core.run k s = .next u ∧ core.run k t = .next u' ∧ SameCourse i u u' := by
  induction k generalizing s t with
  | zero => exact ⟨s, t, rfl, rfl, h⟩
  | succ k ih =>
    rw [run_succ k (step_of_no_host h.host.1), run_succ k (step_of_no_host h.host.2)]
    exact ih h.afterTurn

/-- Two starts of a command on the same operands and source begin the same course (R110). -/
theorem SameCourse.start (i : Instr) (s t : State) (hhost : s.host = [] ∧ t.host = [])
    (hval : i = .size → s.valIn = t.valIn)
    (hbuf : i = .decpB ∨ i = .decsB → s.bufLen = t.bufLen ∧ s.buf = t.buf)
    (hsrc : i = .decpS ∨ i = .decsS → s.strm = t.strm ∧ s.strmAfter = t.strmAfter) :
    SameCourse i (s.start (encode i)) (t.start (encode i)) where
  host := hhost
  running := start_running i s
  busy := by simp
  done := by simp
  code := by simp
  opk := rfl
  strict := rfl
  stream := rfl
  loop := rfl
  valIn ho := hval (by rw [← start_running i s]; exact running_eq_size.mpr ho)
  buffer ho hs := hbuf (by rw [← start_running i s]; exact running_buffer.mpr ⟨ho, hs⟩)
  source ho hs := hsrc (by rw [← start_running i s]; exact running_stream.mpr ⟨ho, hs⟩)
  count hd := by simp at hd
  value hd := by simp at hd

end Sys2Proof.Machine
end

section
open Sys2Proof Sys2Proof.Machine

/-- Settles O45: the two runs stay on the same course from their starts on. -/
theorem completionDependsOnOwnOperands : Obligations.CompletionDependsOnOwnOperands := by
  unfold Obligations.CompletionDependsOnOwnOperands
  intro i s s' k hs hs' hval hbuf hsrc
  have hstart := SameCourse.start i { s with host := [] } { s' with host := [] } ⟨rfl, rfl⟩ hval hbuf hsrc
  obtain ⟨u, u', hu, hu', h⟩ := hstart.run k
  refine ⟨u, u', by rwa [run_succ k (step_of_issues hs)], by rwa [run_succ k (step_of_issues hs')],
    h.busy, h.done, h.code, (Loop.mk.inj h.loop).2.2, h.count, fun hd hi => ?_, fun hi => ?_⟩
  · have ho : u.opk = true := Bool.eq_true_of_not_eq_false fun ho => hi (h.running ▸ running_eq_size.mpr ho)
    exact h.value hd ho
  · rw [← h.running] at hi
    obtain ⟨ho, hst⟩ := running_stream.mp hi
    exact (h.source ho hst).1
end

section
/-! SUPPORT. The stream and the buffer outside the unit: what a command takes of the one and reads of the other, and what the
host's store does (R40 to R42, R45, R48, R52, R204). -/

namespace Sys2Proof.Machine

/-! ### The stream -/

/-- A unit step asks the stream once if the command is a stream decode, and else leaves it alone (R42, R45). -/
theorem RunEffect.strm {s t : State} (h : RunEffect s t) :
    t.strm = if s.opk && s.stream then s.strm.tail else s.strm := by
  cases h with
  | sized ho => simp [sizeStep, ho]
  | blocked ho => simp [State.fetched, ho]
  | advanced _ ho => simp [State.fetched, accumulate, ho]
  | ok _ ho => simp [State.fetched, ho]
  | failed _ _ ho => simp [State.fetched, ho]

/-- Only a stream command takes from the stream, and only in phase RUN. -/
theorem exec_strm {i : Instr} {s t : State} (h : exec i s = .next t) :
    t.strm = s.strm ∨ (i = .decpS ∨ i = .decsS) ∧ s.busy = true ∧ t.strm = s.strm.tail := by
  rcases exec_next h with ⟨-, rfl⟩ | ⟨hb, rfl, -⟩
  · exact .inl rfl
  · have hstrm := (exec_busy_effect hb h).strm
    split at hstrm
    · next hs => exact .inr ⟨running_stream.mpr (by simpa using hs), hb, hstrm⟩
    · exact .inl hstrm

/-! ### Stores -/

theorem step_store {s : State} {off : Nat} {b : Byte} {rest : List HostAct} (h : s.host = .store off b :: rest) :
    step s =
      if !s.hasOffset off then .fault .noSuchOffset
      else if s.holdsBuffer off then .refused .bufferWhileBusy
      else .next { s with host := rest, buf := Memory.write s.buf off b } :=
  step_of_host h

theorem holdsBuffer_iff {s : State} {off : Nat} :
    s.holdsBuffer off = true ↔ s.busy = true ∧ s.opk = true ∧ s.stream = false ∧ off < min s.bufLen 11 := by
  simp [State.holdsBuffer, and_assoc]

/-! ### What a buffer command reads -/

/-- The same unit with another buffer: other bytes, another `BUF_LEN`, another width of it. -/
def State.withBuffer (s : State) (m : Memory) (n w : Nat) : State := { s with buf := m, bufLen := n, lenW := w }

theorem apply_withBuffer (s : State) (m : Memory) (n w : Nat) (o : StepOut) :
    (s.withBuffer m n w).apply o = (s.apply o).withBuffer m n w := by
  cases o with
  | goOn l => rfl
  | done c v k => cases v <;> rfl

/-- Two buffers of which `IDX` is in both or in neither, and whose bytes there are the same, answer alike (R41, R111). -/
theorem bufferNext_withBuffer {s : State} {m : Memory} {n : Nat} (w : Nat)
    (hlen : s.idx.toNat < n ↔ s.idx.toNat < s.bufLen)
    (hread : s.idx.toNat < s.bufLen → Memory.read m s.idx.toNat = Memory.read s.buf s.idx.toNat) :
    bufferNext (s.withBuffer m n w) = bufferNext s := by
  change (if s.idx.toNat < n then Input.byte (Memory.read m s.idx.toNat) else .eof) = bufferNext s
  rw [bufferNext]
  by_cases hlt : s.idx.toNat < s.bufLen
  · rw [if_pos hlt, if_pos (hlen.mpr hlt), hread hlt]
  · rw [if_neg hlt, if_neg (mt hlen.mp hlt)]

/-- The unit step of a running buffer decode is the pure step of R119 on the buffer's answer. -/
theorem unitStep_buffer {s : State} (ho : s.opk = true) (hs : s.stream = false) :
    unitStep s.running s = s.apply (decStep s.strict s.stream s.loop (bufferNext s)) := by
  rw [unitStep_decode ho, nextInput_buffer hs, fetched_of_buffer hs, Option.elim_some]

/-- So the unit step of a buffer decode depends on the buffer only through its answer. -/
theorem unitStep_withBuffer {s : State} {m : Memory} {n w : Nat} (ho : s.opk = true) (hs : s.stream = false)
    (hnext : bufferNext (s.withBuffer m n w) = bufferNext s) :
    unitStep s.running (s.withBuffer m n w) = (unitStep s.running s).withBuffer m n w := by
  rw [unitStep_buffer ho hs, ← apply_withBuffer, ← hnext]
  exact unitStep_buffer (s := s.withBuffer m n w) ho hs

theorem exec_running {s : State} (hb : s.busy = true) : exec s.running s = .next (unitStep s.running s) := by
  simp [exec_eq, operate, hb]

end Sys2Proof.Machine
end

section
open Sys2Proof Sys2Proof.Machine

/-- Settles O32: only a stream command in phase RUN takes from the stream, and it takes the head. -/
theorem streamTakenOneByOne : Obligations.StreamTakenOneByOne := by
  unfold Obligations.StreamTakenOneByOne
  intro i s t h
  rcases exec_strm h with hkept | ⟨hi, hb, htaken⟩
  · exact ⟨fun _ => hkept, fun _ => hkept, .inl hkept⟩
  · refine ⟨fun hi' => ?_, fun hb' => ?_, ?_⟩
    · rcases hi with rfl | rfl <;> simp at hi'
    · rw [hb] at hb'; cases hb'
    · cases hq : s.strm with
      | nil => exact .inl (by rw [htaken, hq, List.tail_nil])
      | cons e q => exact .inr ⟨e, by rw [htaken, hq, List.tail_cons]⟩

/-- Settles O39: the three answers to a store, and the laws of a read after a write. -/
theorem bufferStores : Obligations.BufferStores := by
  unfold Obligations.BufferStores
  intro s off b rest h
  rw [step_store h]
  split
  · next hoff => simp [State.hasOffset, Nat.not_lt.mpr hoff]
  · next hoff =>
    have hoff : s.hasOffset off = true := decide_eq_true (Nat.lt_of_not_le hoff)
    split
    · next hheld => simp [hoff, holdsBuffer_iff.mpr hheld]
    · next hfree =>
      have hfree : s.holdsBuffer off = false := Bool.eq_false_iff.mpr (mt holdsBuffer_iff.mp hfree)
      exact ⟨Memory.write s.buf off b, by simp [hoff, hfree], Memory.read_write_same _ off b,
        fun a ha => Memory.read_write_other _ b ha⟩

/-- Settles O44: `IDX` is at most the cap, so the two buffers give the one step the same answer. -/
theorem unreadBytesDoNotMatter : Obligations.UnreadBytesDoNotMatter := by
  unfold Obligations.UnreadBytesDoNotMatter
  intro i s t m n w hinv hi hb hread hlen h
  rcases exec_next h with ⟨hb', -⟩ | ⟨-, rfl, rfl⟩
  · rw [hb] at hb'; cases hb'
  · obtain ⟨ho, hs⟩ := running_buffer.mp hi
    obtain ⟨-, ⟨-, hidx, -⟩, -⟩ := hinv
    have hnext : bufferNext (s.withBuffer m n w) = bufferNext s :=
      bufferNext_withBuffer w (by omega) fun hlt => hread _ (by omega)
    calc exec s.running (s.withBuffer m n w)
        = .next (unitStep s.running (s.withBuffer m n w)) := exec_running (s := s.withBuffer m n w) hb
      _ = .next ((unitStep s.running s).withBuffer m n w) := by rw [unitStep_withBuffer ho hs hnext]
end

section
/-! SUPPORT. The command words (R66 to R68): what the decoder makes of a word's fields, and the `CMD` write of an illegal word. -/

namespace Sys2Proof.Machine

/-! ### The fields of a word -/

/-- The fields are the whole word (R66). -/
theorem packFields_fieldsOf : ∀ w : Byte, packFields (fieldsOf w) = w := by decide

/-- Only the fields R67 lists for a command are decoded to it. -/
theorem fields_of_commandOf {f : CmdFields} {i : Instr} (h : commandOf f = .command i) : f = fieldsFor i := by
  obtain ⟨z, opc, strict, stream⟩ := f
  simp only [commandOf, CmdFields.zClear, CmdFields.opcDefined, CmdFields.sizePlain] at h
  split at h
  · cases h
  · next hz =>
    obtain rfl : z = 0#4 := by simpa using hz
    split at h
    · cases h
    · next hopc =>
      split at h
      · cases h
      · next hplain =>
        split at h
        · next h0 =>
          cases h
          obtain rfl : opc = 0#2 := by simpa using h0
          obtain ⟨rfl, rfl⟩ : strict = false ∧ stream = false := by simpa using hplain
          rfl
        · next h0 =>
          obtain rfl : opc = 1#2 := by simpa [h0] using hopc
          split at h <;> cases h <;> rfl

theorem decodeCmd_eq_command_iff {w : Byte} {i : Instr} : decodeCmd w = .command i ↔ w = encode i where
  mp h := by rw [← packFields_fieldsOf w, fields_of_commandOf h, encode]
  mpr h := h ▸ decodeCmd_encode i

/-- Bit 3 of a word is the upper bit of `OPC`, which both defined values leave clear (R66). -/
theorem opcDefined_of_bit3 : ∀ w : Byte, w.getLsbD 3 = true → (fieldsOf w).opcDefined = false := by decide

/-! ### The legal words -/

/-- The five words of the opcode map (R67). -/
def legalWords : List Byte := [0x00#8, 0x04#8, 0x05#8, 0x06#8, 0x07#8]

theorem mem_legalWords_iff {w : Byte} : w ∈ legalWords ↔ ∃ i, decodeCmd w = .command i where
  mp h := by
    simp only [legalWords, List.mem_cons, List.not_mem_nil, or_false] at h
    rcases h with rfl | rfl | rfl | rfl | rfl
    exacts [⟨.size, rfl⟩, ⟨.decpB, rfl⟩, ⟨.decpS, rfl⟩, ⟨.decsB, rfl⟩, ⟨.decsS, rfl⟩]
  mpr := by
    rintro ⟨i, h⟩
    rw [decodeCmd_eq_command_iff.mp h]
    cases i <;> decide

/-- The words that are not legal are the ones the decoder rejects (R68). -/
theorem not_mem_legalWords_iff {w : Byte} : w ∉ legalWords ↔ ∃ why, decodeCmd w = .illegal why := by
  rw [mem_legalWords_iff]
  cases decodeCmd w with
  | command i => simp
  | illegal why => simp

/-- The three sorts of illegal words, checked on each of the 256 words (R68). -/
theorem not_mem_legalWords_sorts : ∀ w : Byte,
    w ∉ legalWords ↔
      w.extractLsb' 4 4 ≠ 0#4 ∨ w.extractLsb' 2 2 ∈ [0b10#2, 0b11#2] ∨ w ∈ [0x01#8, 0x02#8, 0x03#8] := by
  decide

/-- A `CMD` write of an illegal word outside phase RUN is the completion `ILLEGAL_CMD`, and starts nothing (R68, R178). -/
theorem step_cmdWrite_illegal {s : State} {w : Byte} {rest : List HostAct} {why : CmdReject} (hb : s.busy = false)
    (hhost : s.host = .write 0 w.toNat :: rest) (hw : decodeCmd w = .illegal why) :
    step s = .next { s with host := rest }.illegalCommand := by
  have hb' : ({ s with host := rest } : State).busy = false := hb
  simp [step_of_host hhost, hostTurn, regWrite, cmdWrite, hb', hw]

end Sys2Proof.Machine
end

section
open Sys2Proof Sys2Proof.Machine

/-- Settles O6: a word that decodes to a command is the one the encoder gives it. -/
theorem opcodeMap : Obligations.OpcodeMap :=
  ⟨rfl, rfl, rfl, rfl, rfl, fun _ i h => mem_legalWords_iff.mpr ⟨i, h⟩, .reservedOpc, rfl⟩

/-- Settles O7: decoding reads the fields, and the fields are the whole word. -/
theorem decodeOfEncode : Obligations.DecodeOfEncode := fun _ _ => decodeCmd_eq_command_iff

/-- Settles O8: the decoder's tests in turn: `Z`, then `OPC`, then the mode bits of SIZE. -/
theorem illegalWordsByField : Obligations.IllegalWordsByField := by
  unfold Obligations.IllegalWordsByField
  intro w
  refine ⟨fun hz => ?_, fun hz h3 => ?_, fun hw => ?_⟩
  · have hz' : (fieldsOf w).zClear = false := by simpa [CmdFields.zClear, fieldsOf] using hz
    simp [decodeCmd, commandOf, hz']
  · have hz' : (fieldsOf w).zClear = true := by simpa [CmdFields.zClear, fieldsOf] using hz
    simp [decodeCmd, commandOf, hz', opcDefined_of_bit3 w h3]
  · revert w
    decide

/-- Settles O9: the two forms of the list of R68, and the one step of the `CMD` write. -/
theorem illegalWordCompletesAtOnce : Obligations.IllegalWordCompletesAtOnce := by
  unfold Obligations.IllegalWordCompletesAtOnce
  refine ⟨fun w => ⟨not_mem_legalWords_iff, not_mem_legalWords_sorts w⟩, fun s w rest hb hhost hw => ?_⟩
  obtain ⟨why, hwhy⟩ := not_mem_legalWords_iff.mp hw
  exact ⟨statusWith false true Code.illegalCmd.bits s.status, step_cmdWrite_illegal hb hhost hwhy,
    statusWith_busy .., statusWith_done .., statusWith_code .., statusWith_reserved ..⟩
end

section
/-! SUPPORT. The reference functions: encoded values byte by byte, `Enc`, and its padded forms (R60 to R65, R91, R100). -/

namespace Sys2Proof.Machine

/-! ### Encoded values -/

theorem isEncoded_cons (b : Byte) {d : List Byte} (h : d ≠ []) : isEncoded (b :: d) = (contFlag b && isEncoded d) := by
  cases d with
  | nil => exact absurd rfl h
  | cons => rfl

/-- Continuation bytes, then a terminal byte (R62). -/
theorem isEncoded_concat (d : List Byte) (b : Byte) : isEncoded (d ++ [b]) = (d.all contFlag && !contFlag b) := by
  induction d with
  | nil => rfl
  | cons x d ih => rw [List.cons_append, isEncoded_cons x (by simp), ih, List.all_cons, Bool.and_assoc]

/-- The byte after `d` adds its group at `2^(7n)` (R61). -/
theorem logicalValue_concat (d : List Byte) (b : Byte) :
    logicalValue (d ++ [b]) = logicalValue d + (group b).toNat * 2 ^ (7 * d.length) := by
  rw [logicalValue, valueFrom_append, toNat_group]
  simp [logicalValue, valueFrom]

theorem toNat_group_lt (b : Byte) : (group b).toNat < 2 ^ 7 := by
  rw [toNat_group]
  exact (b.extractLsb' 0 7).isLt

/-- `n` groups are below `2^(7n)`. -/
theorem logicalValue_lt (d : List Byte) : logicalValue d < 2 ^ (7 * d.length) := by
  induction d using List.reverseRecOn with
  | nil => decide
  | append_singleton d b ih =>
    have hg := Nat.mul_le_mul_right (2 ^ (7 * d.length)) (Nat.le_sub_one_of_lt (toNat_group_lt b))
    rw [logicalValue_concat, List.length_append, List.length_singleton, Nat.mul_succ, Nat.pow_add]
    omega

/-- The group of a terminal byte is the byte itself (R60). -/
theorem setWidth_of_terminal : ∀ b : Byte, contFlag b = false → b.setWidth 64 = group b := by decide

/-! ### The continuation flag set on a byte -/

theorem contFlag_setFlag : ∀ b : Byte, contFlag (0x80#8 ||| b) = true := by decide

theorem group_setFlag : ∀ b : Byte, group (0x80#8 ||| b) = group b := by decide

/-- The flag is no part of the logical value (R61). -/
theorem logicalValue_map_setFlag (d : List Byte) : logicalValue (d.map (0x80#8 ||| ·)) = logicalValue d := by
  induction d using List.reverseRecOn with
  | nil => rfl
  | append_singleton d b ih =>
    rw [List.map_append, List.map_singleton, logicalValue_concat, logicalValue_concat, ih, group_setFlag, List.length_map]

/-- Zero groups after a value leave it as it is (R65). -/
theorem logicalValue_append_zeroGroups (d : List Byte) (n : Nat) :
    logicalValue (d ++ List.replicate n 0x80#8) = logicalValue d := by
  induction n with
  | zero => simp
  | succ n ih =>
    rw [List.replicate_succ', ← List.append_assoc, logicalValue_concat, ih, show group 0x80#8 = 0#64 by decide]
    simp

/-! ### `Enc` -/

theorem toNat_ne_zero_of_ne_zero {v : Word} (h : v ≠ 0#64) : v.toNat ≠ 0 := fun h0 => h (BitVec.eq_of_toNat_eq h0)

/-- The size of a value that is not 0, by its bit length (R91). -/
theorem size_of_ne_zero {v : Word} (h : v ≠ 0#64) : size v = (Nat.log2 v.toNat + 7) / 7 := by
  rw [size, if_neg h, bitlen, if_neg (toNat_ne_zero_of_ne_zero h)]
  rfl

theorem size_pos (v : Word) : 1 ≤ size v := by
  by_cases h : v = 0#64
  · rw [h]; decide
  · rw [size_of_ne_zero h]
    omega

/-- `size(v)` groups of 7 bits hold `v` (R91). -/
theorem toNat_lt_size (v : Word) : v.toNat < 2 ^ (7 * size v) := by
  by_cases h : v = 0#64
  · rw [h]; decide
  · refine (Nat.log2_lt (toNat_ne_zero_of_ne_zero h)).mp ?_
    rw [size_of_ne_zero h]
    omega

@[simp] theorem enc_length (v : Word) : (enc v).length = size v := by simp [enc]

/-- The group of index `k` is the digit of `v` of that place in base `2^7` (R100). -/
theorem toNat_group_encGroup (v : Word) (k : Nat) : (group (encGroup v k)).toNat = v.toNat / 2 ^ (7 * k) % 2 ^ 7 := by
  rw [toNat_group, encGroup]
  simp only [BitVec.extractLsb'_toNat, BitVec.toNat_setWidth, BitVec.toNat_ushiftRight, Nat.shiftRight_eq_div_pow]
  omega

/-- Bytes whose groups are the groups of `v` in order, `n` of them, have the value of its low `7n` bits. -/
theorem logicalValue_groups (v : Word) (f : Nat → Byte) (hf : ∀ k, group (f k) = group (encGroup v k)) (n : Nat) :
    logicalValue ((List.range n).map f) = v.toNat % 2 ^ (7 * n) := by
  induction n with
  | zero => simp [logicalValue, valueFrom, Nat.mod_one]
  | succ n ih =>
    rw [List.range_succ, List.map_append, List.map_singleton, logicalValue_concat, ih, hf, toNat_group_encGroup,
      List.length_map, List.length_range, Nat.mul_succ, Nat.pow_add, Nat.mod_mul, Nat.mul_comm (2 ^ (7 * n))]

/-- `Enc(v)` has the logical value `v` (R102). -/
theorem logicalValue_enc (v : Word) : logicalValue (enc v) = v.toNat := by
  rw [enc, logicalValue_groups v _ fun k => ?_, Nat.mod_eq_of_lt (toNat_lt_size v)]
  split
  · exact group_setFlag _
  · rfl

/-! ### Padded forms -/

/-- A padded form without its zero terminal byte (R65). -/
def paddedInit (v : Word) (n : Nat) : List Byte := (enc v).map (0x80#8 ||| ·) ++ List.replicate (n - size v - 1) 0x80#8

theorem padded_eq (v : Word) (n : Nat) : padded v n = paddedInit v n ++ [0x00#8] := rfl

theorem paddedInit_length {v : Word} {n : Nat} (h : size v < n) : (paddedInit v n).length = n - 1 := by
  simp only [paddedInit, List.length_append, List.length_map, enc_length, List.length_replicate]
  omega

theorem padded_length {v : Word} {n : Nat} (h : size v < n) : (padded v n).length = n := by
  rw [padded_eq, List.length_append, paddedInit_length h, List.length_singleton]
  omega

theorem paddedInit_continues (v : Word) (n : Nat) : ∀ b ∈ paddedInit v n, contFlag b = true := by
  intro b hb
  rcases List.mem_append.mp hb with hb | hb
  · obtain ⟨x, -, rfl⟩ := List.mem_map.mp hb
    exact contFlag_setFlag x
  · rw [List.eq_of_mem_replicate hb]
    rfl

theorem padded_isEncoded (v : Word) (n : Nat) : isEncoded (padded v n) = true := by
  rw [padded_eq, isEncoded_concat, List.all_eq_true.mpr (paddedInit_continues v n)]
  rfl

/-- A padded form ends with a zero byte that is not its first (R63). -/
theorem padded_not_canonical {v : Word} {n : Nat} (h : size v < n) : isCanonical (padded v n) = false := by
  have hlen : (padded v n).length ≠ 1 := by
    have := size_pos v
    rw [padded_length h]
    omega
  have hlast : (padded v n).getLast? = some 0#8 := by rw [padded_eq, List.getLast?_concat]
  simp [isCanonical, hlen, hlast]

theorem logicalValue_padded (v : Word) (n : Nat) : logicalValue (padded v n) = v.toNat := by
  rw [padded_eq, logicalValue_concat, paddedInit, logicalValue_append_zeroGroups, logicalValue_map_setFlag,
    logicalValue_enc, show group 0x00#8 = 0#64 by decide]
  simp

end Sys2Proof.Machine
end

section
/-! SUPPORT. A decode of a source that begins with given bytes: a run over continuation bytes, and the step that ends it (R110 to
R116, R119). Both source kinds and both modes at once. -/

namespace Sys2Proof.Machine

/-! ### The loop registers after some bytes -/

/-- The loop registers after one continuation byte more (R112). -/
def Loop.push (l : Loop) (b : Byte) : Loop :=
  { acc := l.acc ||| shl64 (group b) l.shift.toNat, shift := l.shift + 7#7, idx := l.idx + 1#4 }

theorem accumulate_eq (l : Loop) (b : Byte) : accumulate l b = .goOn (l.push b) := rfl

/-- The loop registers after the bytes `d` of a source. -/
def Loop.after (d : List Byte) : Loop := d.foldl Loop.push Loop.start

theorem Loop.after_concat (d : List Byte) (b : Byte) : Loop.after (d ++ [b]) = (Loop.after d).push b := by
  simp [Loop.after]

/-- `IDX` counts the bytes (R19). -/
theorem Loop.after_idx (d : List Byte) : (Loop.after d).idx = BitVec.ofNat 4 d.length := by
  induction d using List.reverseRecOn with
  | nil => rfl
  | append_singleton d b ih =>
    rw [Loop.after_concat, Loop.push, ih, List.length_append, BitVec.ofNat_add]
    rfl

/-- `SHIFT` is 7 a byte (R18). -/
theorem Loop.after_shift (d : List Byte) : (Loop.after d).shift = BitVec.ofNat 7 (7 * d.length) := by
  induction d using List.reverseRecOn with
  | nil => rfl
  | append_singleton d b ih =>
    rw [Loop.after_concat, Loop.push, ih, List.length_append, Nat.mul_add, BitVec.ofNat_add]
    rfl

theorem Loop.after_idx_toNat {d : List Byte} (h : d.length ≤ 10) : (Loop.after d).idx.toNat = d.length := by
  rw [Loop.after_idx, BitVec.toNat_ofNat]
  omega

theorem Loop.after_shift_toNat {d : List Byte} (h : d.length ≤ 10) : (Loop.after d).shift.toNat = 7 * d.length := by
  rw [Loop.after_shift, BitVec.toNat_ofNat]
  omega

/-- `ACC` holds the groups of the bytes, cut to 64 bits (R17). -/
theorem Loop.after_acc {d : List Byte} (h : d.length ≤ 10) : (Loop.after d).acc.toNat = logicalValue d % 2 ^ 64 := by
  induction d using List.reverseRecOn with
  | nil => rfl
  | append_singleton d b ih =>
    rw [List.length_append, List.length_singleton] at h
    have hlt : (Loop.after d).acc.toNat < 2 ^ (7 * d.length) := by
      rw [ih (by omega)]
      exact (Nat.mod_le _ _).trans_lt (logicalValue_lt d)
    rw [Loop.after_concat, Loop.push, Loop.after_shift_toNat (by omega), toNat_or_shl64 hlt, ih (by omega),
      logicalValue_concat, Nat.mod_add_mod]

/-- The value of a terminal byte after `d` is that of all the bytes, cut to 64 bits (R113). -/
theorem toNat_termValue_after {d : List Byte} {b : Byte} (hb : contFlag b = false) (h : d.length ≤ 9) :
    (termValue (Loop.after d) b).toNat = logicalValue (d ++ [b]) % 2 ^ 64 := by
  rw [← Loop.after_acc (by simp; omega), Loop.after_concat, termValue, setWidth_of_terminal b hb]
  rfl

/-! ### The commands by their latches -/

/-- The decode command with these mode latches (R67). -/
def decodeCommand (strict stream : Bool) : Instr :=
  match strict, stream with
  | false, false => .decpB
  | false, true => .decpS
  | true, false => .decsB
  | true, true => .decsS

/-- The start of a decode latches its mode (R110). -/
theorem start_decodeCommand (s : State) (strict stream : Bool) :
    (s.start (encode (decodeCommand strict stream))).opk = true ∧
      (s.start (encode (decodeCommand strict stream))).strict = strict ∧
      (s.start (encode (decodeCommand strict stream))).stream = stream := by
  cases strict <;> cases stream <;> exact ⟨rfl, rfl, rfl⟩

/-- Every policy accumulates a continuation byte below its cap (R112, R116). -/
theorem decStep_continuation {strict stream : Bool} {l : Loop} {b : Byte} (hc : contFlag b = true)
    (hi : l.idx.toNat < idxCap (decodeCommand strict stream)) :
    decStep strict stream l (.byte b) = .goOn (l.push b) := by
  rw [← accumulate_eq]
  cases strict <;> cases stream <;> simp only [decodeCommand, idxCap] at hi
  · simp [decStep, policyDecpB, hc, Nat.not_le.mpr hi]
  · simp [decStep, policyDecpS, hc, Nat.not_le.mpr hi]
  · simp [decStep, policyDecsB, strictByte, hc, show ¬ (l.idx.toNat = 8 ∨ 9 ≤ l.idx.toNat) by omega]
  · simp [decStep, policyDecsS, strictByte, hc, show ¬ (l.idx.toNat = 8 ∨ 9 ≤ l.idx.toNat) by omega]

/-! ### A source that begins with given bytes -/

/-- The source of this kind begins with the bytes `d`; in a stream `more` follows them. -/
def State.Supplies (s : State) (stream : Bool) (d : List Byte) (more : List SrcEvent) : Prop :=
  if stream then s.strm = d.map SrcEvent.byte ++ more else s.BufferBegins d

/-- A running decode, left alone by the host, has read the bytes `d`, and its source answers next with the bytes `next`; in a
stream `more` follows them. -/
structure State.HasRead (s : State) (d next : List Byte) (more : List SrcEvent) : Prop where
  host : s.host = []
  busy : s.busy = true
  opk : s.opk = true
  loop : s.loop = Loop.after d
  stream : s.stream = true → s.strm = next.map SrcEvent.byte ++ more
  buffer : s.stream = false → s.BufferBegins (d ++ next)

variable {s : State} {d next : List Byte} {b : Byte} {more : List SrcEvent}

/-- At the start nothing has been read. -/
theorem State.HasRead.start {strict stream : Bool} (hhost : s.host = []) (h : s.Supplies stream next more) :
    (s.start (encode (decodeCommand strict stream))).HasRead [] next more := by
  obtain ⟨ho, -, hs⟩ := start_decodeCommand s strict stream
  refine ⟨hhost, start_busy .., ho, rfl, fun hst => ?_, fun hst => ?_⟩
  · obtain rfl : stream = true := hs.symm.trans hst
    exact h
  · obtain rfl : stream = false := hs.symm.trans hst
    exact h

/-- The next byte is the next answer (R111). -/
theorem State.HasRead.nextInput (h : s.HasRead d (b :: next) more) (hd : d.length ≤ 10) : s.nextInput = some (.byte b) := by
  cases hs : s.stream with
  | true => simp [State.nextInput, hs, h.stream hs]
  | false =>
    obtain ⟨hlen, hread⟩ := h.buffer hs
    have hidx : s.idx.toNat = d.length := by
      rw [← Loop.after_idx_toNat hd, ← h.loop]
    rw [List.length_append, List.length_cons] at hlen
    rw [nextInput_buffer hs, bufferNext, hidx, if_pos (by omega), hread d.length (by simp)]
    simp

/-- The step is the policy's outcome on that byte (R115, R119). -/
theorem State.HasRead.step (h : s.HasRead d (b :: next) more) (hd : d.length ≤ 10) :
    step s = .next (s.fetched.apply (decStep s.strict s.stream (Loop.after d) (.byte b))) := by
  rw [step_of_no_host h.host, afterTurn, if_pos h.busy, unitStep_decode h.opk, h.nextInput hd, h.loop]
  rfl

theorem fetched_strm_of_stream (h : s.stream = true) : s.fetched.strm = s.strm.tail := by
  rw [fetched_of_stream h]
  rfl

/-- After an accumulated byte that byte has been read too (R112). -/
theorem State.HasRead.push (h : s.HasRead d (b :: next) more) :
    (s.fetched.apply (.goOn ((Loop.after d).push b))).HasRead (d ++ [b]) next more where
  host := h.host
  busy := h.busy
  opk := h.opk
  loop := (Loop.after_concat d b).symm
  stream (hs : s.stream = true) := by
    rw [apply_goOn_strm, fetched_strm_of_stream hs, h.stream hs]
    rfl
  buffer hs := by
    rw [List.append_assoc]
    exact h.buffer hs

/-- A run over continuation bytes below the cap, one step for each (R112, R116). -/
theorem State.HasRead.run_continuation {init : List Byte} (h : s.HasRead d (init ++ next) more)
    (hc : ∀ b ∈ init, contFlag b = true) (hcap : d.length + init.length ≤ idxCap (decodeCommand s.strict s.stream)) :
    ∃ t : State, t.HasRead (d ++ init) next more ∧ t.strict = s.strict ∧ t.stream = s.stream ∧
      ∀ k, core.run (init.length + k) s = core.run k t := by
  induction init generalizing s d with
  | nil => exact ⟨s, by simpa using h, rfl, rfl, fun k => by simp⟩
  | cons b init ih =>
    obtain ⟨hb, hinit⟩ := List.forall_mem_cons.mp hc
    rw [List.length_cons] at hcap
    have hten := idxCap_le_ten (decodeCommand s.strict s.stream)
    have hd : d.length ≤ 10 := by omega
    have hgo : decStep s.strict s.stream (Loop.after d) (.byte b) = .goOn ((Loop.after d).push b) :=
      decStep_continuation hb (by rw [Loop.after_idx_toNat hd]; omega)
    have hstep := h.step hd
    rw [hgo] at hstep
    obtain ⟨t, ht, hstrict, hstream, hrun⟩ := ih h.push hinit (by
      rw [List.length_append, List.length_singleton]
      exact (show d.length + 1 + init.length ≤ idxCap (decodeCommand s.strict s.stream) by omega))
    refine ⟨t, by simpa using ht, hstrict, hstream, fun k => ?_⟩
    rw [List.length_cons, Nat.add_right_comm, run_succ _ hstep, hrun]

/-- A whole decode: issued on a source that begins with continuation bytes below the cap and a byte on which the policy ends, it
completes as the policy says, and takes nothing more of a stream (R115, R119). -/
theorem run_decode {strict stream : Bool} {init rest : List Byte} {c : Code} {v : Option Word} {n : BitVec 4}
    (hissue : s.Issues (decodeCommand strict stream)) (hsource : s.Supplies stream (init ++ b :: rest) more)
    (hc : ∀ b ∈ init, contFlag b = true) (hcap : init.length ≤ idxCap (decodeCommand strict stream))
    (hdone : decStep strict stream (Loop.after init) (.byte b) = .done c v n) :
    ∃ t : State, core.run (init.length + 2) s = .next t ∧ t.host = [] ∧ t.Completed c n.toNat ∧
      (∀ x, v = some x → t.value = x) ∧ (stream = true → t.strm = rest.map SrcEvent.byte ++ more) := by
  obtain ⟨-, hstrict₀, hstream₀⟩ := start_decodeCommand { s with host := [] } strict stream
  have hstart : ({ s with host := [] }.start (encode (decodeCommand strict stream))).HasRead [] (init ++ b :: rest) more :=
    .start rfl hsource
  obtain ⟨u, hu, hstrict, hstream, hrun⟩ := hstart.run_continuation hc (by
    rw [hstrict₀, hstream₀]
    simpa using hcap)
  have hten := idxCap_le_ten (decodeCommand strict stream)
  have hlast := hu.step (show init.length ≤ 10 by omega)
  rw [hstrict, hstream, hstrict₀, hstream₀, List.nil_append, hdone, apply_done] at hlast
  refine ⟨u.fetched.finish c v n, ?_, ?_, ⟨finish_busy .., finish_done .., finish_code .., by rw [finish_count]⟩, ?_, ?_⟩
  · rw [show init.length + 2 = (init.length + 1) + 1 from rfl, run_succ _ (step_of_issues hissue), hrun, run_succ 0 hlast]
    rfl
  · rw [finish_host]
    exact hu.host
  · rintro x rfl
    rfl
  · intro hs
    have hs' : u.stream = true := by rw [hstream, hstream₀, hs]
    rw [finish_strm, fetched_strm_of_stream hs', hu.stream hs']
    rfl

end Sys2Proof.Machine
end

section
/-! SUPPORT. Decodes of padded forms (R65, R132, R150). -/

namespace Sys2Proof.Machine

/-! ### The policies on the byte that ends a padded form -/

/-- The permissive mode takes a zero terminal byte of an index up to 9 (R130, R131). -/
theorem decStep_permissive_zero (stream : Bool) {l : Loop} (hi : l.idx.toNat ≤ 9) :
    decStep false stream l (.byte 0x00#8) = .done .ok (some (termValue l 0x00#8)) (l.idx + 1#4) := by
  have hcont : contFlag 0x00#8 = false := rfl
  cases stream with
  | false => simp [decStep, policyDecpB, hcont, show ¬ 10 ≤ l.idx.toNat by omega]
  | true => simp [decStep, policyDecpS, hcont]

/-- Both strict commands treat a byte alike (R151). -/
theorem decStep_strict_byte (stream : Bool) (l : Loop) (b : Byte) : decStep true stream l (.byte b) = strictByte l b := by
  cases stream <;> rfl

/-- The strict mode refuses a zero terminal byte that is not the first (R174). -/
theorem strictByte_zero {l : Loop} (hi : l.idx.toNat ≤ 8) (hs : 0 < l.shift.toNat) :
    strictByte l 0x00#8 = .done .nonMinimal none (l.idx + 1#4) := by
  have hcont : contFlag 0x00#8 = false := rfl
  simp [strictByte, raise, hcont, hs, show ¬ 9 ≤ l.idx.toNat by omega]

/-- The strict mode refuses a continuation byte of index 8 (R173). -/
theorem strictByte_ninth {l : Loop} {b : Byte} (hi : l.idx.toNat = 8) (hc : contFlag b = true) :
    strictByte l b = .done .overflow none (l.idx + 1#4) := by
  simp [strictByte, raise, hi, hc]

/-! ### Whole decodes -/

theorem toNat_succ_after_idx {d : List Byte} (h : d.length ≤ 10) : ((Loop.after d).idx + 1#4).toNat = d.length + 1 := by
  have hidx := Loop.after_idx_toNat h
  rw [toNat_succ_idx (by omega), hidx]

variable {v : Word} {n : Nat} {s : State} {stream : Bool} {more : List SrcEvent}

/-- The permissive mode decodes a padded form of up to 10 bytes to its value (R132). -/
theorem run_permissive_padded (hn : size v < n) (hten : n ≤ 10) (hissue : s.Issues (decodeCommand false stream))
    (hsource : s.Supplies stream (padded v n) more) :
    ∃ (k : Nat) (t : State), core.run k s = .next t ∧ t.host = [] ∧ t.Completed .ok n ∧ t.value = v ∧
      (stream = true → t.strm = more) := by
  have hlen := paddedInit_length hn
  have hidx : (Loop.after (paddedInit v n)).idx.toNat ≤ 9 := by
    rw [Loop.after_idx_toNat (by omega)]
    omega
  have hcap : 9 ≤ idxCap (decodeCommand false stream) := by cases stream <;> decide
  rw [padded_eq] at hsource
  obtain ⟨t, hrun, hhost, hend, hval, hstrm⟩ :=
    run_decode hissue hsource (paddedInit_continues v n) (by omega) (decStep_permissive_zero stream hidx)
  refine ⟨_, t, hrun, hhost, ?_, ?_, hstrm⟩
  · rw [toNat_succ_after_idx (by omega), hlen, Nat.sub_add_cancel (by omega)] at hend
    exact hend
  · rw [hval _ rfl]
    refine BitVec.eq_of_toNat_eq ?_
    rw [toNat_termValue_after rfl (by omega), ← padded_eq, logicalValue_padded, Nat.mod_eq_of_lt v.isLt]

/-- The strict mode refuses a padded form at its terminal byte or at the ninth, whichever comes first (R173, R174). -/
theorem run_strict_padded (hn : size v < n) (hissue : s.Issues (decodeCommand true stream))
    (hsource : s.Supplies stream (padded v n) more) :
    ∃ (k : Nat) (t : State), core.run k s = .next t ∧ t.host = [] ∧
      (stream = true → t.strm = ((padded v n).drop 9).map SrcEvent.byte ++ more) ∧
      if n ≤ 9 then t.Completed .nonMinimal n else t.Completed .overflow 9 := by
  have hlen := paddedInit_length hn
  have hpos := size_pos v
  have hcap : idxCap (decodeCommand true stream) = 8 := by cases stream <;> rfl
  by_cases hnine : n ≤ 9
  · have hidx : (Loop.after (paddedInit v n)).idx.toNat ≤ 8 := by
      rw [Loop.after_idx_toNat (by omega)]
      omega
    have hshift : 0 < (Loop.after (paddedInit v n)).shift.toNat := by
      rw [Loop.after_shift_toNat (by omega)]
      omega
    rw [padded_eq] at hsource
    obtain ⟨t, hrun, hhost, hend, -, hstrm⟩ :=
      run_decode hissue hsource (paddedInit_continues v n) (by omega)
        ((decStep_strict_byte stream _ _).trans (strictByte_zero hidx hshift))
    refine ⟨_, t, hrun, hhost, fun hs => ?_, ?_⟩
    · rw [List.drop_eq_nil_of_le (by rw [padded_length hn]; exact hnine)]
      exact hstrm hs
    · rw [toNat_succ_after_idx (by omega), hlen, Nat.sub_add_cancel (by omega)] at hend
      rwa [if_pos hnine]
  · have hsplit : padded v n = (paddedInit v n).take 8 ++ (paddedInit v n)[8]'(by omega) :: (padded v n).drop 9 := by
      rw [padded_eq, List.drop_append_of_le_length (by omega), ← List.cons_append, List.getElem_cons_drop,
        ← List.append_assoc, List.take_append_drop]
    have htake : ((paddedInit v n).take 8).length = 8 := by
      rw [List.length_take]
      omega
    rw [hsplit] at hsource
    obtain ⟨t, hrun, hhost, hend, -, hstrm⟩ :=
      run_decode hissue hsource (fun b hb => paddedInit_continues v n b (List.mem_of_mem_take hb)) (by omega)
        ((decStep_strict_byte stream _ _).trans
          (strictByte_ninth (by rw [Loop.after_idx_toNat (by omega), htake])
            (paddedInit_continues v n _ (List.getElem_mem _))))
    refine ⟨_, t, hrun, hhost, hstrm, ?_⟩
    rw [toNat_succ_after_idx (by omega), htake] at hend
    rwa [if_neg hnine]

end Sys2Proof.Machine
end

section
open Sys2Proof Sys2Proof.Machine

/-- Settles O60: the shape and the value of a padded form, and its decode in each mode on each kind of source. -/
theorem paddedEncodings : Obligations.PaddedEncodings := by
  unfold Obligations.PaddedEncodings
  intro v n hn
  refine ⟨padded_isEncoded v n, padded_not_canonical hn, padded_length hn, logicalValue_padded v n,
    fun s hissue hbuf hten => ?_, fun s more hissue hstrm hten => ?_, fun s hissue hbuf => ?_, fun s more hissue hstrm => ?_⟩
  · obtain ⟨k, t, hrun, hhost, hend, hval, -⟩ :=
      run_permissive_padded (stream := false) (more := []) hn hten hissue hbuf
    exact ⟨k, t, hrun, hhost, hend, hval⟩
  · obtain ⟨k, t, hrun, hhost, hend, hval, hleft⟩ := run_permissive_padded (stream := true) hn hten hissue hstrm
    exact ⟨k, t, hrun, hhost, hend, hval, hleft rfl⟩
  · obtain ⟨k, t, hrun, hhost, -, hend⟩ := run_strict_padded (stream := false) (more := []) hn hissue hbuf
    exact ⟨k, t, hrun, hhost, hend⟩
  · obtain ⟨k, t, hrun, hhost, hleft, hend⟩ := run_strict_padded (stream := true) hn hissue hstrm
    exact ⟨k, t, hrun, hhost, hleft rfl, hend⟩
end

section
/-! SUPPORT. The size calculator: the threshold on a value that a number of groups is, and the unit step of SIZE (R90 to R92). -/

namespace Sys2Proof.Machine

/-! ### The function `size` -/

/-- `size(v)` is the least positive number of groups that holds `v` (R91). -/
theorem size_le_iff {v : Word} {n : Nat} (hn : 1 ≤ n) : size v ≤ n ↔ v.toNat < 2 ^ (7 * n) where
  mp h := (toNat_lt_size v).trans_le (Nat.pow_le_pow_right (by decide) (Nat.mul_le_mul_left 7 h))
  mpr h := by
    by_cases hv : v = 0#64
    · rw [hv]
      exact hn
    · have hlog : Nat.log2 v.toNat < 7 * n := (Nat.log2_lt (toNat_ne_zero_of_ne_zero hv)).mpr h
      rw [size_of_ne_zero hv]
      omega

/-- The threshold table (R92): `n` groups, and no fewer, hold `v`. -/
theorem size_eq_iff {v : Word} {n : Nat} (hn : 1 ≤ n) :
    size v = n ↔ (n = 1 ∨ 2 ^ (7 * (n - 1)) ≤ v.toNat) ∧ v.toNat < 2 ^ (7 * n) := by
  rw [← size_le_iff hn]
  have hpos := size_pos v
  obtain rfl | hone : n = 1 ∨ 1 ≤ n - 1 := by omega
  · simp only [true_or, true_and]
    omega
  · rw [← not_lt, ← size_le_iff hone]
    omega

/-- `COUNT` holds every size, without wrapping (R16, R91). -/
theorem toNat_ofNat_size (v : Word) : (BitVec.ofNat 4 (size v)).toNat = size v := by
  have h := size_le_ten v
  rw [BitVec.toNat_ofNat, Nat.mod_eq_of_lt (by omega)]

/-! ### The unit step -/

/-- Asked for while it runs, SIZE takes its unit step (R90, R115). -/
theorem exec_size_of_busy {s : State} (hb : s.busy = true) (ho : s.opk = false) : exec .size s = .next (sizeStep s) := by
  have h := exec_running hb
  rwa [unitStep_size ho, running_eq_size.mpr ho] at h

/-- With no action of the host to come, that unit step is the machine's step. -/
theorem step_of_sizing {s : State} (hhost : s.host = []) (hb : s.busy = true) (ho : s.opk = false) :
    step s = .next (sizeStep s) := by
  rw [step_of_no_host hhost, afterTurn, if_pos hb, unitStep_size ho]

/-- The one step of SIZE completes OK with the size (R90). -/
theorem sizeStep_completed (s : State) : (sizeStep s).Completed .ok (size s.valIn) :=
  ⟨finish_busy .., finish_done .., finish_code .., by rw [sizeStep, finish_count, toNat_ofNat_size]⟩

/-- The whole operation: the step that starts SIZE, then its one unit step (R110, R116). -/
theorem run_size {s : State} (h : s.Issues .size) :
    core.run 2 s = .next (sizeStep (({ s with host := [] } : State).start (encode .size))) := by
  have hsize := step_of_sizing (s := ({ s with host := [] } : State).start (encode .size)) rfl (start_busy ..)
    (running_eq_size.mp (start_running ..))
  rw [run_succ 1 (step_of_issues h), run_succ 0 hsize]
  rfl

end Sys2Proof.Machine
end

section
open Sys2Proof Sys2Proof.Machine

/-- Settles O15: the size is the least positive number of groups that holds the value, and `len` bits are what holds it. -/
theorem sizeOfBitLength : Obligations.SizeOfBitLength := by
  unfold Obligations.SizeOfBitLength
  refine ⟨rfl, fun v len hlen hlow hhigh => ⟨?_, fun q hq => ?_⟩, fun v => ⟨size_pos v, size_le_ten v⟩⟩
  · have h : len - 1 < 7 * size v := (Nat.pow_lt_pow_iff_right (by decide)).mp (hlow.trans_lt (toNat_lt_size v))
    omega
  · exact (size_le_iff (by omega)).mpr (hhigh.trans_le (Nat.pow_le_pow_right (by decide) hq))

/-- Settles O16: each row of the table, and the strict bound as the threshold of 9 groups. -/
theorem sizeThresholds : Obligations.SizeThresholds :=
  ⟨fun _ _ hn _ => size_eq_iff hn, fun _ => (size_le_iff (n := 9) (by decide)).symm⟩

/-- Settles O17: the start and the unit step of SIZE, and the corner cases computed. -/
theorem sizeCommand : Obligations.SizeCommand := by
  unfold Obligations.SizeCommand
  refine ⟨decodeCmd_encode .size, fun s hb => ?_, fun s hb ho => ?_, by decide⟩
  · exact ⟨_, exec_of_not_busy .size hb, statusWith_busy .., statusWith_done .., statusWith_code ..⟩
  · exact ⟨_, exec_size_of_busy hb ho, toNat_ofNat_size s.valIn, statusWith_busy .., statusWith_done .., statusWith_code ..⟩

/-- Settles O18: the state that the run of SIZE ends in, with what its unit step keeps. -/
theorem sizeOperation : Obligations.SizeOperation := by
  unfold Obligations.SizeOperation
  intro s hissue
  refine ⟨_, run_size hissue, sizeStep_completed _, ?_, ?_⟩
  · simp [State.SameOperands, sizeStep]
  · simp [sizeStep]
end

section
/-! SUPPORT. `Enc` as continuation bytes and a terminal byte, and its canonical form (R62, R63, R100, R102). -/

namespace Sys2Proof.Machine

/-- `Enc(v)` without its terminal byte: the flag set on every group but the last (R100). -/
def encInit (v : Word) : List Byte := (List.range (size v - 1)).map fun k => 0x80#8 ||| encGroup v k

/-- The terminal byte of `Enc(v)`: the last group (R100). -/
def encLast (v : Word) : Byte := encGroup v (size v - 1)

theorem enc_eq_concat (v : Word) : enc v = encInit v ++ [encLast v] := by
  have hpos := size_pos v
  obtain ⟨n, hn⟩ : ∃ n, size v = n + 1 := ⟨size v - 1, by omega⟩
  rw [enc, encInit, encLast, hn, Nat.add_sub_cancel, List.range_succ, List.map_append, List.map_singleton]
  refine congrArg₂ (· ++ ·) (List.map_congr_left fun k hk => ?_) ?_
  · rw [if_pos (Nat.succ_lt_succ (List.mem_range.mp hk))]
  · rw [if_neg (Nat.lt_irrefl _)]

theorem encInit_length (v : Word) : (encInit v).length = size v - 1 := by simp [encInit]

theorem encInit_continues (v : Word) : ∀ b ∈ encInit v, contFlag b = true := by
  intro b hb
  obtain ⟨k, -, rfl⟩ := List.mem_map.mp hb
  exact contFlag_setFlag _

theorem contFlag_encGroup (v : Word) (k : Nat) : contFlag (encGroup v k) = false := by
  have seven : ∀ g : BitVec 7, contFlag (g.setWidth 8) = false := by decide
  exact seven _

theorem encLast_terminal (v : Word) : contFlag (encLast v) = false := contFlag_encGroup v _

/-- A terminal byte is its group as a number (R60). -/
theorem toNat_group_of_terminal {b : Byte} (h : contFlag b = false) : (group b).toNat = b.toNat := by
  rw [← setWidth_of_terminal b h, BitVec.toNat_setWidth, Nat.mod_eq_of_lt (b.isLt.trans (by decide))]

/-- The terminal byte of `Enc(v)` is what is left of `v` above the other groups. -/
theorem toNat_encLast (v : Word) : (encLast v).toNat = v.toNat / 2 ^ (7 * (size v - 1)) := by
  have hpos := size_pos v
  have hlt : v.toNat < 2 ^ (7 * (size v - 1)) * 2 ^ 7 := by
    rw [← Nat.pow_add, show 7 * (size v - 1) + 7 = 7 * size v by omega]
    exact toNat_lt_size v
  rw [← toNat_group_of_terminal (encLast_terminal v), encLast, toNat_group_encGroup,
    Nat.mod_eq_of_lt (Nat.div_lt_of_lt_mul hlt)]

/-- After another byte the terminal byte of `Enc(v)` is not zero (R63): fewer groups do not hold `v`. -/
theorem encLast_ne_zero {v : Word} (h : 1 < size v) : encLast v ≠ 0#8 := by
  have hge : 2 ^ (7 * (size v - 1)) ≤ v.toNat :=
    Nat.le_of_not_lt fun hlt => absurd ((size_le_iff (by omega)).mpr hlt) (by omega)
  have hpos : 0 < (encLast v).toNat := toNat_encLast v ▸ Nat.div_pos hge (Nat.two_pow_pos _)
  intro h0
  rw [h0] at hpos
  exact absurd hpos (by decide)

/-- Above nine groups of a 64-bit value there is one bit (R94). -/
theorem encLast_le_one {v : Word} (h : size v = 10) : (encLast v).toNat ≤ 1 := by
  have hlt := v.isLt
  rw [toNat_encLast, h]
  omega

/-- `Enc(v)` is canonical (R102). -/
theorem enc_isCanonical (v : Word) : isCanonical (enc v) = true := by
  have hencoded : isEncoded (enc v) = true := by
    rw [enc_eq_concat, isEncoded_concat, List.all_eq_true.mpr (encInit_continues v), encLast_terminal]
    rfl
  have hlast : (enc v).getLast? = some (encLast v) := by rw [enc_eq_concat, List.getLast?_concat]
  rw [isCanonical, hencoded, enc_length, hlast]
  obtain hone | hmore : size v = 1 ∨ 1 < size v := by have := size_pos v; omega
  · simp [hone]
  · simp [encLast_ne_zero hmore]

end Sys2Proof.Machine
end

section
/-! SUPPORT. Decodes of `Enc(v)` (R94, R103, R132, R153), and what a whole run leaves alone (R26, R45). -/

namespace Sys2Proof.Machine

/-! ### Operands over a run -/

theorem State.SameOperands.refl (s : State) : s.SameOperands s := ⟨rfl, rfl, rfl, fun _ => rfl, rfl, rfl, rfl⟩

theorem State.SameOperands.trans {s t u : State} (h : s.SameOperands t) (h' : t.SameOperands u) : s.SameOperands u := by
  obtain ⟨hw, hval, hlen, hread, hbuf, hafter, hhost⟩ := h
  obtain ⟨hw', hval', hlen', hread', hbuf', hafter', hhost'⟩ := h'
  exact ⟨hw'.trans hw, hval'.trans hval, hlen'.trans hlen, fun a => (hread' a).trans (hread a), hbuf'.trans hbuf,
    hafter'.trans hafter, hhost'.trans hhost⟩

theorem afterTurn_leaves_operands (s : State) : s.SameOperands (afterTurn s) ∧ (afterTurn s).host = s.host := by
  cases hb : s.busy with
  | false =>
    rw [afterTurn_of_not_busy hb]
    exact ⟨.refl s, rfl⟩
  | true => exact (afterTurn_effect hb).leaves_operands

/-- A unit left alone by the host changes no operand, however many steps it takes. -/
theorem run_leaves_operands {s t : State} {k : Nat} (hhost : s.host = []) (h : core.run k s = .next t) :
    s.SameOperands t := by
  induction k generalizing s with
  | zero =>
    cases h
    exact .refl _
  | succ k ih =>
    rw [run_succ k (step_of_no_host hhost)] at h
    obtain ⟨hsame, hhost'⟩ := afterTurn_leaves_operands s
    exact hsame.trans (ih (hhost'.trans hhost) h)

/-- Nor does the run that begins with the `CMD` write of a command. -/
theorem run_issued_leaves_operands {s t : State} {i : Instr} {k : Nat} (hissue : s.Issues i)
    (h : core.run k s = .next t) : s.SameOperands t := by
  cases k with
  | zero =>
    cases h
    exact .refl _
  | succ k =>
    rw [run_succ k (step_of_issues hissue)] at h
    have hsame := run_leaves_operands rfl h
    exact hsame

/-! ### The policies on a terminal byte -/

/-- The permissive mode takes a terminal byte of an index up to 9, at index 9 if it is 0 or 1 (R130, R131). -/
theorem decStep_permissive_terminal (stream : Bool) {l : Loop} {b : Byte} (hb : contFlag b = false)
    (hi : l.idx.toNat ≤ 9) (hlast : l.idx.toNat = 9 → b.toNat ≤ 1) :
    decStep false stream l (.byte b) = .done .ok (some (termValue l b)) (l.idx + 1#4) := by
  cases stream with
  | false =>
    simp [decStep, policyDecpB, hb, show ¬ 10 ≤ l.idx.toNat by omega, show ¬ (l.idx.toNat = 9 ∧ 1 < b.toNat) by omega]
  | true => simp [decStep, policyDecpS, hb, show ¬ (9 ≤ l.idx.toNat ∧ 1 < b.toNat) by omega]

/-- The strict mode takes a terminal byte of an index up to 8 that is the first or not zero (R150, R151). -/
theorem decStep_strict_terminal (stream : Bool) {l : Loop} {b : Byte} (hb : contFlag b = false)
    (hi : l.idx.toNat ≤ 8) (hmin : b = 0#8 → l.shift.toNat = 0) :
    decStep true stream l (.byte b) = .done .ok (some (termValue l b)) (l.idx + 1#4) := by
  have hmin' : ¬ (b = 0#8 ∧ 0 < l.shift.toNat) := fun ⟨h0, hs⟩ => absurd (hmin h0) (by omega)
  rw [decStep_strict_byte, strictByte, if_neg (by simp [hb]; omega), if_pos (by simp [hb]), if_neg hmin']

/-! ### Whole decodes -/

variable {v : Word} {s : State} {strict stream : Bool} {more : List SrcEvent}

/-- A mode that holds the groups before the last and takes the terminal byte decodes `Enc(v)` to `v`, one byte a step. -/
theorem run_enc (hissue : s.Issues (decodeCommand strict stream)) (hsource : s.Supplies stream (enc v) more)
    (hcap : size v ≤ idxCap (decodeCommand strict stream) + 1)
    (hdone : decStep strict stream (Loop.after (encInit v)) (.byte (encLast v)) =
      .done .ok (some (termValue (Loop.after (encInit v)) (encLast v))) ((Loop.after (encInit v)).idx + 1#4)) :
    ∃ t : State, core.run (1 + size v) s = .next t ∧ t.Completed .ok (size v) ∧ t.value = v ∧
      (stream = true → t.strm = more) := by
  have hpos := size_pos v
  have hten := size_le_ten v
  have hlen := encInit_length v
  rw [enc_eq_concat] at hsource
  obtain ⟨t, hrun, -, hend, hval, hstrm⟩ := run_decode hissue hsource (encInit_continues v) (by omega) hdone
  rw [toNat_succ_after_idx (by omega), hlen, Nat.sub_add_cancel hpos] at hend
  rw [hlen, show size v - 1 + 2 = 1 + size v by omega] at hrun
  refine ⟨t, hrun, hend, ?_, hstrm⟩
  rw [hval _ rfl]
  refine BitVec.eq_of_toNat_eq ?_
  rw [toNat_termValue_after (encLast_terminal v) (by omega), ← enc_eq_concat, logicalValue_enc,
    Nat.mod_eq_of_lt v.isLt]

/-- `IDX` at the terminal byte of `Enc(v)`. -/
theorem toNat_after_encInit_idx (v : Word) : (Loop.after (encInit v)).idx.toNat = size v - 1 := by
  have hlen := encInit_length v
  have hten := size_le_ten v
  rw [Loop.after_idx_toNat (by omega), hlen]

/-- The permissive mode gives back every value (R103 b). -/
theorem run_permissive_enc (hissue : s.Issues (decodeCommand false stream)) (hsource : s.Supplies stream (enc v) more) :
    ∃ t : State, core.run (1 + size v) s = .next t ∧ t.Completed .ok (size v) ∧ t.value = v ∧
      (stream = true → t.strm = more) := by
  have hten := size_le_ten v
  have hidx := toNat_after_encInit_idx v
  have hcap : 9 ≤ idxCap (decodeCommand false stream) := by cases stream <;> decide
  exact run_enc hissue hsource (by omega) <|
    decStep_permissive_terminal stream (encLast_terminal v) (by omega) fun h9 => encLast_le_one (by omega)

/-- The strict mode gives back every value of at most nine groups (R103 a). -/
theorem run_strict_enc (hnine : size v ≤ 9) (hissue : s.Issues (decodeCommand true stream))
    (hsource : s.Supplies stream (enc v) more) :
    ∃ t : State, core.run (1 + size v) s = .next t ∧ t.Completed .ok (size v) ∧ t.value = v ∧
      (stream = true → t.strm = more) := by
  have hidx := toNat_after_encInit_idx v
  have hlen := encInit_length v
  have hcap : idxCap (decodeCommand true stream) = 8 := by cases stream <;> rfl
  have hmin : encLast v = 0#8 → (Loop.after (encInit v)).shift.toNat = 0 := fun h0 => by
    have hone : ¬ 1 < size v := fun h => encLast_ne_zero h h0
    rw [Loop.after_shift_toNat (by omega)]
    omega
  exact run_enc hissue hsource (by omega) <|
    decStep_strict_terminal stream (encLast_terminal v) (by omega) hmin

/-- The strict mode overflows at the ninth continuation byte, and takes no byte after it (R173). -/
theorem run_strict_nine_continuations {init rest : List Byte} (hlen : init.length = 9)
    (hc : ∀ b ∈ init, contFlag b = true) (hissue : s.Issues (decodeCommand true stream))
    (hsource : s.Supplies stream (init ++ rest) more) :
    ∃ t : State, core.run 10 s = .next t ∧ t.Completed .overflow 9 ∧
      (stream = true → t.strm = rest.map SrcEvent.byte ++ more) := by
  obtain rfl | ⟨d, b, rfl⟩ := List.eq_nil_or_concat' init
  · cases hlen
  · have hd : d.length = 8 := by simpa using hlen
    have hcap : idxCap (decodeCommand true stream) = 8 := by cases stream <;> rfl
    have hover := (decStep_strict_byte stream _ b).trans <|
      strictByte_ninth (l := Loop.after d) (by rw [Loop.after_idx_toNat (by omega), hd]) (hc b (by simp))
    rw [List.append_assoc] at hsource
    obtain ⟨t, hrun, -, hend, -, hstrm⟩ :=
      run_decode hissue hsource (fun x hx => hc x (List.mem_append_left _ hx)) (by omega) hover
    rw [hd] at hrun
    rw [toNat_succ_after_idx (by omega), hd] at hend
    exact ⟨t, hrun, hend, hstrm⟩

/-- A value of `2^63` and above takes ten groups (R92). -/
theorem size_of_wide (h : 2 ^ 63 ≤ v.toNat) : size v = 10 := by
  have hten := size_le_ten v
  have hnine : ¬ size v ≤ 9 := fun hle => absurd ((size_le_iff (by decide)).mp hle) (Nat.not_lt.mpr h)
  omega

/-- The strict mode refuses `Enc(v)` of ten groups at its ninth byte (R103 d, R154 b). -/
theorem run_strict_enc_wide (hwide : 2 ^ 63 ≤ v.toNat) (hissue : s.Issues (decodeCommand true stream))
    (hsource : s.Supplies stream (enc v) more) :
    ∃ t : State, core.run 10 s = .next t ∧ t.Completed .overflow 9 ∧
      (stream = true → t.strm = ((enc v).drop 9).map SrcEvent.byte ++ more) := by
  have hlen : (encInit v).length = 9 := by rw [encInit_length, size_of_wide hwide]
  rw [enc_eq_concat] at hsource ⊢
  rw [List.drop_left' hlen]
  exact run_strict_nine_continuations hlen (encInit_continues v) hissue hsource

end Sys2Proof.Machine
end

section
open Sys2Proof Sys2Proof.Machine

/-- Settles O51: below `2^63` are the values of at most nine groups, which the strict mode takes to the last. -/
theorem strictRecoversEncoded : Obligations.StrictRecoversEncoded := by
  unfold Obligations.StrictRecoversEncoded
  refine ⟨fun s v hissue hbuf hv => ?_, fun s v more hissue hstrm hv => ?_⟩
  · obtain ⟨t, hrun, hend, hval, -⟩ :=
      run_strict_enc (stream := false) (more := []) ((size_le_iff (by decide)).mpr hv) hissue hbuf
    exact ⟨t, hrun, hend, hval, run_issued_leaves_operands hissue hrun⟩
  · obtain ⟨t, hrun, hend, hval, hleft⟩ :=
      run_strict_enc (stream := true) ((size_le_iff (by decide)).mpr hv) hissue hstrm
    exact ⟨t, hrun, hend, hval, hleft rfl⟩

/-- Settles O52: ten groups hold every value, and a tenth is at most 1. -/
theorem permissiveRecoversEncoded : Obligations.PermissiveRecoversEncoded := by
  unfold Obligations.PermissiveRecoversEncoded
  refine ⟨fun s v hissue hbuf => ?_, fun s v more hissue hstrm => ?_⟩
  · obtain ⟨t, hrun, hend, hval, -⟩ := run_permissive_enc (stream := false) (more := []) hissue hbuf
    exact ⟨t, hrun, hend, hval, run_issued_leaves_operands hissue hrun⟩
  · obtain ⟨t, hrun, hend, hval, hleft⟩ := run_permissive_enc (stream := true) hissue hstrm
    exact ⟨t, hrun, hend, hval, hleft rfl⟩

/-- Settles O53: a value of `2^63` and above has a tenth byte, so its ninth is a continuation byte. -/
theorem strictRefusesWideValues : Obligations.StrictRefusesWideValues := by
  unfold Obligations.StrictRefusesWideValues
  refine ⟨fun s v hissue hbuf hv => ?_, fun s v more hissue hstrm hv => ?_⟩
  · obtain ⟨t, hrun, hend, -⟩ := run_strict_enc_wide (stream := false) (more := []) hv hissue hbuf
    exact ⟨t, hrun, hend, run_issued_leaves_operands hissue hrun⟩
  · obtain ⟨t, hrun, hend, hleft⟩ := run_strict_enc_wide (stream := true) hv hissue hstrm
    exact ⟨t, hrun, hend, hleft rfl⟩
end

section
/-! SUPPORT. `Enc` byte by byte from the front: the loop of a serial encoder, and that no other canonical encoding has its value
(R63, R100, R102). -/

namespace Sys2Proof.Machine

/-! ### The loop form -/

theorem ushiftRight_seven_toNat (v : Word) : (v >>> 7).toNat = v.toNat / 2 ^ 7 := by
  rw [BitVec.toNat_ushiftRight, Nat.shiftRight_eq_div_pow]

/-- A value of one group is encoded as that byte (R100). -/
theorem enc_of_lt {v : Word} (h : v.toNat < 0x80) : enc v = [v.setWidth 8] := by
  have hone : size v = 1 := Nat.le_antisymm ((size_le_iff (by decide)).mpr h) (size_pos v)
  have hbyte : encGroup v 0 = v.setWidth 8 := by
    refine BitVec.eq_of_toNat_eq ?_
    rw [← toNat_group_of_terminal (contFlag_encGroup v 0), toNat_group_encGroup, BitVec.toNat_setWidth]
    omega
  simp [enc, hone, hbyte]

/-- One group less is left of a value of more than one group (R91). -/
theorem size_eq_succ {v : Word} (h : 0x80 ≤ v.toNat) : size v = size (v >>> 7) + 1 := by
  have hpos := size_pos (v >>> 7)
  obtain ⟨hlow, hhigh⟩ := (size_eq_iff hpos).mp rfl
  rw [ushiftRight_seven_toNat] at hlow hhigh
  refine (size_eq_iff (by omega)).mpr ⟨.inr ?_, ?_⟩
  · rw [Nat.add_sub_cancel]
    rcases hlow with hone | hlow
    · rwa [hone]
    · rw [Nat.le_div_iff_mul_le (by decide), ← Nat.pow_add] at hlow
      rwa [show 7 * size (v >>> 7) = 7 * (size (v >>> 7) - 1) + 7 by omega]
  · rw [Nat.div_lt_iff_lt_mul (by decide), ← Nat.pow_add] at hhigh
    rwa [Nat.mul_succ]

/-- The groups of what is left are the groups from the second on (R100). -/
theorem encGroup_ushiftRight_seven (v : Word) (k : Nat) : encGroup (v >>> 7) k = encGroup v (k + 1) := by
  rw [encGroup, encGroup, ← BitVec.shiftRight_add, Nat.mul_succ, Nat.add_comm]

/-- A value of more than one group: its low group with the flag set, then the encoding of what is left (R100). -/
theorem enc_of_le {v : Word} (h : 0x80 ≤ v.toNat) :
    enc v = (0x80#8 ||| (v.extractLsb' 0 7).setWidth 8) :: enc (v >>> 7) := by
  have hpos := size_pos (v >>> 7)
  have hlow : encGroup v 0 = (v.extractLsb' 0 7).setWidth 8 := by rw [encGroup, Nat.mul_zero, BitVec.ushiftRight_zero]
  rw [enc, size_eq_succ h, List.range_succ_eq_map, List.map_cons, List.map_map, if_pos (by omega), hlow]
  refine congrArg _ (List.map_congr_left fun k _ => ?_)
  simp [encGroup_ushiftRight_seven]

/-! ### The canonical encoding of a value -/

theorem valueFrom_succ (k : Nat) (d : List Byte) : valueFrom (k + 1) d = valueFrom k d * 2 ^ 7 := by
  induction d generalizing k with
  | nil => simp [valueFrom]
  | cons b d ih => rw [valueFrom, valueFrom, ih, Nat.add_mul, Nat.mul_succ, Nat.pow_add, Nat.mul_assoc]

/-- The bytes after the first have their value times `2^7` (R61). -/
theorem logicalValue_cons (b : Byte) (d : List Byte) : logicalValue (b :: d) = (group b).toNat + logicalValue d * 2 ^ 7 := by
  rw [logicalValue, logicalValue, valueFrom, valueFrom_succ, toNat_group, Nat.mul_zero, Nat.pow_zero, Nat.mul_one]

/-- Bytes that end with a terminal byte that is not zero have a value above 0 (R61). -/
theorem logicalValue_concat_pos (d : List Byte) {x : Byte} (hterm : contFlag x = false) (hx : x ≠ 0#8) :
    0 < logicalValue (d ++ [x]) := by
  have hpos : 0 < (group x).toNat := by
    rw [toNat_group_of_terminal hterm]
    exact Nat.pos_of_ne_zero fun h0 => hx (BitVec.eq_of_toNat_eq h0)
  rw [logicalValue_concat]
  exact Nat.add_pos_right _ (Nat.mul_pos hpos (Nat.two_pow_pos _))

/-- A canonical encoding of more than one byte: a continuation byte before a canonical one that is not zero (R63). -/
theorem isCanonical_cons {b : Byte} {d : List Byte} (hd : d ≠ []) (h : isCanonical (b :: d) = true) :
    contFlag b = true ∧ isCanonical d = true ∧ 0 < logicalValue d := by
  rw [isCanonical, isEncoded_cons b hd] at h
  obtain rfl | ⟨d, x, rfl⟩ := List.eq_nil_or_concat' d
  · exact absurd rfl hd
  · have h : (contFlag b = true ∧ isEncoded (d ++ [x]) = true) ∧ x ≠ 0#8 := by
      simpa [List.getLast?_cons] using h
    obtain ⟨⟨hb, hencoded⟩, hx⟩ := h
    have hcanon : isCanonical (d ++ [x]) = true := by simp [isCanonical, hencoded, hx]
    rw [isEncoded_concat, Bool.and_eq_true, Bool.not_eq_true'] at hencoded
    obtain ⟨-, hterm⟩ := hencoded
    exact ⟨hb, hcanon, logicalValue_concat_pos d hterm hx⟩

/-- A continuation byte is its group with the flag set (R60). -/
theorem setFlag_group : ∀ b : Byte, contFlag b = true → b = 0x80#8 ||| (b.extractLsb' 0 7).setWidth 8 := by decide

/-- A canonical encoding of `v` is `Enc(v)` (R102). -/
theorem eq_enc_of_isCanonical {d : List Byte} {v : Word} (h : isCanonical d = true) (hv : logicalValue d = v.toNat) :
    d = enc v := by
  induction d generalizing v with
  | nil => cases h
  | cons b d ih =>
    rw [logicalValue_cons] at hv
    by_cases hd : d = []
    · subst hd
      have hterm : contFlag b = false := by simpa [isCanonical, isEncoded] using h
      have hlt := toNat_group_lt b
      rw [toNat_group_of_terminal hterm] at hv hlt
      have hv' : v.toNat = b.toNat := hv.symm
      rw [enc_of_lt (by omega)]
      refine congrArg (· :: []) (BitVec.eq_of_toNat_eq ?_)
      rw [BitVec.toNat_setWidth, hv', Nat.mod_eq_of_lt b.isLt]
    · obtain ⟨hb, hcanon, hpos⟩ := isCanonical_cons hd h
      have hlt := toNat_group_lt b
      have hrest : logicalValue d = (v >>> 7).toNat := by
        rw [ushiftRight_seven_toNat]
        omega
      have hlow : b.extractLsb' 0 7 = v.extractLsb' 0 7 := by
        refine BitVec.eq_of_toNat_eq ?_
        rw [← toNat_group, BitVec.extractLsb'_toNat, Nat.shiftRight_zero]
        omega
      rw [enc_of_le (by omega), ← ih hcanon hrest, ← hlow, ← setFlag_group b hb]

end Sys2Proof.Machine
end

section
/-! SUPPORT. The buffer form of the encoder, with room and without (R101). -/

namespace Sys2Proof.Machine

variable {m : Memory} {len draws : Nat} {v : Word}

/-- With room the bytes of `Enc(v)` are written from offset 0 (R101). -/
theorem encodeInto_of_room (h : size v ≤ len) :
    encodeInto m len v draws = (.written (size v), Memory.writeAll m 0 (enc v), draws) :=
  if_pos h

/-- Without room every byte of the buffer is a fresh draw (R101, U2). -/
theorem encodeInto_of_no_room (h : len < size v) :
    encodeInto m len v draws =
      (.bufferTooSmall, Memory.writeAll m 0 ((List.range len).map fun k => Config.anyByte (draws + k)), draws + len) :=
  if_neg (Nat.not_le.mpr h)

/-- Bytes written from offset 0 are read back at their indexes. -/
theorem read_writeAll_zero (bs : List Byte) {k : Nat} (h : k < bs.length) :
    Memory.read (Memory.writeAll m 0 bs) k = bs.getD k 0#8 := by
  simpa using Memory.read_writeAll_same (m := m) (a := 0) bs h

end Sys2Proof.Machine
end

section
open Sys2Proof Sys2Proof.Machine

/-- Settles O57: one group, or the low group and the encoding of what is left. -/
theorem encLoopForm : Obligations.EncLoopForm := fun _ => ⟨enc_of_lt, enc_of_le⟩

/-- Settles O58: the shape and the value of `Enc(v)`, and that the canonical encoding of a value is unique. -/
theorem encIsTheCanonicalEncoding : Obligations.EncIsTheCanonicalEncoding := by
  unfold Obligations.EncIsTheCanonicalEncoding
  refine ⟨fun v => ⟨enc_length v, enc_isCanonical v, logicalValue_enc v⟩, fun d hcanon _ hlt => ?_⟩
  exact eq_enc_of_isCanonical hcanon (by rw [BitVec.toNat_ofNat, Nat.mod_eq_of_lt hlt])

/-- Settles O59: the bytes written from offset 0 are read back, and no other byte is touched. -/
theorem encodeIntoBuffer : Obligations.EncodeIntoBuffer := by
  unfold Obligations.EncodeIntoBuffer
  intro m len v draws
  refine ⟨fun hroom => ?_, fun hfull => ?_⟩
  · rw [encodeInto_of_room hroom]
    refine ⟨rfl, rfl, fun k hk => ?_, fun k hk => ?_⟩
    · exact read_writeAll_zero _ (by rwa [enc_length])
    · exact Memory.read_writeAll_other _ (.inr (by rwa [enc_length, Nat.zero_add]))
  · rw [encodeInto_of_no_room hfull]
    refine ⟨rfl, rfl, fun k hk => ?_, fun k hk => ?_⟩
    · rw [read_writeAll_zero _ (by simpa using hk)]
      simp [hk]
    · exact Memory.read_writeAll_other _ (.inr (by simpa using hk))

/-- Settles O56: each vector is computed. -/
theorem encodingVectors : Obligations.EncodingVectors := by
  unfold Obligations.EncodingVectors
  decide
end

section
/-! SUPPORT. One step of the decode loop: what a policy makes of a byte and of the end of the source, and what the step of a
running decode does with it (R112, R113, R117). -/

namespace Sys2Proof.Machine

/-! ### The running decode by its latches -/

theorem running_eq_decodeCommand {s : State} (ho : s.opk = true) : s.running = decodeCommand s.strict s.stream := by
  unfold State.running decodeCommand
  cases s.strict <;> cases s.stream <;> rw [ho]

theorem opk_of_running_ne_size {s : State} (h : s.running ≠ .size) : s.opk = true :=
  Bool.eq_true_of_not_eq_false (mt running_eq_size.mpr h)

/-! ### The policies on a byte and at the end of the source -/

/-- Every policy ends the operation at the end of the source, by the source kind (R117). -/
theorem decStep_eof (strict stream : Bool) (l : Loop) : decStep strict stream l .eof = endOfSource stream l := by
  cases strict <;> cases stream <;> rfl

/-- A terminal byte that loses no bit when its group enters at `SHIFT = 7 * IDX` (R113, R133). -/
def Loop.Takes (l : Loop) (b : Byte) : Prop := l.idx.toNat ≤ 9 ∧ (l.idx.toNat = 9 → b.toNat ≤ 1)

/-- What a policy with this index cap can make of a byte (R112, R113, R173, R174). -/
inductive ByteOutcome (cap : Nat) (l : Loop) (b : Byte) : StepOut → Prop where
  | goOn (hc : contFlag b = true) : ByteOutcome cap l b (.goOn (l.push b))
  | ok (hc : contFlag b = false) (htakes : l.idx.toNat ≤ cap → l.Takes b) :
      ByteOutcome cap l b (.done .ok (some (termValue l b)) (l.idx + 1#4))
  | overflow (n : BitVec 4) : ByteOutcome cap l b (.done .overflow none n)
  | nonMinimal (n : BitVec 4) : ByteOutcome cap l b (.done .nonMinimal none n)

theorem policyDecpB_byte (l : Loop) (b : Byte) : ByteOutcome 10 l b (policyDecpB l (.byte b)) := by
  simp only [policyDecpB]
  split
  · exact .overflow _
  · next hten =>
    split
    · next hc =>
      split
      · exact .overflow _
      · next hlast => exact .ok (by simpa using hc) fun _ => ⟨by omega, fun h9 => by omega⟩
    · next hc => exact .goOn (by simpa using hc)

theorem policyDecpS_byte (l : Loop) (b : Byte) : ByteOutcome 9 l b (policyDecpS l (.byte b)) := by
  simp only [policyDecpS]
  split
  · next hc =>
    split
    · exact .overflow _
    · next hlast => exact .ok (by simpa using hc) fun hcap => ⟨hcap, fun h9 => by omega⟩
  · next hc =>
    split
    · exact .overflow _
    · exact .goOn (by simpa using hc)

theorem strictByte_byte (l : Loop) (b : Byte) : ByteOutcome 8 l b (strictByte l b) := by
  unfold strictByte
  split
  · exact .overflow _
  · split
    · next hc =>
      split
      · exact .nonMinimal _
      · exact .ok (by simpa using hc) fun hcap => ⟨by omega, fun h9 => by omega⟩
    · next hc => exact .goOn (by simpa using hc)

theorem decStep_byte (strict stream : Bool) (l : Loop) (b : Byte) :
    ByteOutcome (idxCap (decodeCommand strict stream)) l b (decStep strict stream l (.byte b)) := by
  cases strict <;> cases stream
  · exact policyDecpB_byte l b
  · exact policyDecpS_byte l b
  · exact strictByte_byte l b
  · exact strictByte_byte l b

variable {strict stream : Bool} {l : Loop} {inp : Input} {c : Code} {v : Option Word} {n : BitVec 4}

/-- A decode ends OK on a terminal byte alone, and within the cap no bit of it is lost (R113, R133). -/
theorem decStep_ok (h : decStep strict stream l inp = .done .ok v n) :
    ∃ b, inp = .byte b ∧ contFlag b = false ∧ v = some (termValue l b) ∧ n = l.idx + 1#4 ∧
      (l.idx.toNat ≤ idxCap (decodeCommand strict stream) → l.Takes b) := by
  cases inp with
  | eof =>
    rw [decStep_eof] at h
    have hend := endOfSource_outcome 0 stream l
    rw [h] at hend
    cases hend with
    | failed _ _ _ hc => exact absurd hc (by decide)
  | byte b =>
    have hbyte := decStep_byte strict stream l b
    rw [h] at hbyte
    cases hbyte with
    | ok hc htakes => exact ⟨b, rfl, hc, rfl, rfl, htakes⟩

/-- The kinds that tell of a source's end tell its kind too (R117). -/
theorem decStep_end_kind (h : decStep strict stream l inp = .done c v n) :
    (c = .truncated → stream = false) ∧ (c = .endOfInput ∨ c = .unexpectedEnd → stream = true) := by
  cases inp with
  | eof =>
    rw [decStep_eof, endOfSource] at h
    cases stream with
    | false =>
      cases h
      simp
    | true =>
      split at h
      · simp_all
      · split at h <;> cases h <;> simp
  | byte b =>
    have hbyte := decStep_byte strict stream l b
    rw [h] at hbyte
    cases hbyte <;> simp

/-- A decode goes on from a byte alone, and then has read it (R112). -/
theorem decStep_goOn {l' : Loop} (h : decStep strict stream l inp = .goOn l') :
    ∃ b, inp = .byte b ∧ contFlag b = true ∧ l' = l.push b := by
  cases inp with
  | eof =>
    rw [decStep_eof] at h
    have hend := endOfSource_outcome 0 stream l
    rw [h] at hend
    cases hend
  | byte b =>
    have hbyte := decStep_byte strict stream l b
    rw [h] at hbyte
    cases hbyte with
    | goOn hc => exact ⟨b, rfl, hc, rfl⟩

/-! ### The step of a running decode -/

variable {i : Instr} {s t : State} {b : Byte}

/-- A command answers in phase RUN only if it is the running one, and then with its unit step (R115, R203). -/
theorem exec_of_busy (hb : s.busy = true) (h : exec i s = .next t) : s.running = i ∧ t = unitStep s.running s := by
  rcases exec_next h with ⟨hb', -⟩ | ⟨-, rfl, rfl⟩
  · rw [hb] at hb'; cases hb'
  · exact ⟨rfl, rfl⟩

theorem exec_running_decode (hb : s.busy = true) (ho : s.opk = true) (hin : s.nextInput = some inp) :
    exec s.running s = .next (s.fetched.apply (decStep s.strict s.stream s.loop inp)) := by
  rw [exec_running hb, unitStep_decode ho, hin, Option.elim_some]

/-- The step by which a decode ends: the policy ends it on the source's answer (R114, R115). -/
theorem exec_decode_ends (hb : s.busy = true) (ho : s.opk = true) (h : exec i s = .next t) (hend : t.busy = false) :
    ∃ inp c v n, s.nextInput = some inp ∧ decStep s.strict s.stream s.loop inp = .done c v n ∧
      t = s.fetched.finish c v n := by
  obtain ⟨-, rfl⟩ := exec_of_busy hb h
  rw [unitStep_decode ho] at hend ⊢
  cases hin : s.nextInput with
  | none =>
    rw [hin] at hend
    exact absurd (hb.symm.trans hend) (by decide)
  | some inp =>
    rw [hin, Option.elim_some] at hend
    rw [Option.elim_some]
    cases hout : decStep s.strict s.stream s.loop inp with
    | goOn l =>
      rw [hout] at hend
      exact absurd (hb.symm.trans hend) (by decide)
    | done c v n => exact ⟨inp, c, v, n, rfl, hout, rfl⟩

/-- A unit step ends the operation, or waits for the source, or accumulates a continuation byte below the cap (R112, R114, R206). -/
theorem RunEffect.ends_or_goes_on (h : RunEffect s t) :
    (t.busy = false ∧ t.done = true) ∨ (s.nextInput = none ∧ t = s.fetched) ∨
    ∃ b, s.nextInput = some (.byte b) ∧ contFlag b = true ∧ s.idx.toNat < idxCap s.running ∧
      t = s.fetched.apply (.goOn (s.loop.push b)) := by
  cases h with
  | sized => exact .inl ⟨finish_busy .., finish_done ..⟩
  | blocked _ hin => exact .inr (.inl ⟨hin, rfl⟩)
  | advanced b _ hin hc hi => exact .inr (.inr ⟨b, hin, hc, hi, rfl⟩)
  | ok => exact .inl ⟨finish_busy .., finish_done ..⟩
  | failed => exact .inl ⟨finish_busy .., finish_done ..⟩

/-- The step by which a decode goes on from a byte: it accumulates a continuation byte below the cap (R112, R116). -/
theorem exec_decode_goes_on (hb : s.busy = true) (hin : s.nextInput = some (.byte b)) (h : exec i s = .next t)
    (hon : t.busy = true) :
    contFlag b = true ∧ s.idx.toNat < idxCap s.running ∧ t = s.fetched.apply (.goOn (s.loop.push b)) := by
  rcases (exec_busy_effect hb h).ends_or_goes_on with ⟨hend, -⟩ | ⟨hnone, -⟩ | ⟨b', hin', hc, hi, rfl⟩
  · rw [hon] at hend; cases hend
  · rw [hin] at hnone; cases hnone
  · rw [hin] at hin'
    cases hin'
    exact ⟨hc, hi, rfl⟩

/-- Only DECP.B accumulates at an index above 8 (R116). -/
theorem idxCap_le_nine {i : Instr} (h : i ≠ .decpB) : idxCap i ≤ 9 := by
  cases i <;> simp_all [idxCap]

/-- A group entered at an index of at most 8 ends below bit 64 (R24, R112). -/
theorem group_fits {k : Nat} (b : Byte) (h : k ≤ 8) : (b.extractLsb' 0 7).toNat * 2 ^ (7 * k) < 2 ^ 64 :=
  calc (b.extractLsb' 0 7).toNat * 2 ^ (7 * k) < 2 ^ 7 * 2 ^ (7 * k) :=
        Nat.mul_lt_mul_of_pos_right (b.extractLsb' 0 7).isLt (Nat.two_pow_pos _)
    _ = 2 ^ (7 + 7 * k) := (Nat.pow_add ..).symm
    _ < 2 ^ 64 := Nat.pow_lt_pow_right (by decide) (by omega)

/-- At index 10 DECP.B ends on every answer (R130, decision D7). -/
theorem policyDecpB_ten (hl : l.idx = 10#4) (inp : Input) :
    policyDecpB l inp = .done .truncated none 10#4 ∨ policyDecpB l inp = .done .overflow none 11#4 := by
  cases inp with
  | eof => exact .inl (by simp [policyDecpB, endOfSource, raise, hl])
  | byte b => exact .inr (by simp [policyDecpB, raise, hl])

/-! ### What a unit step leaves of the registers -/

theorem RunEffect.latches (h : RunEffect s t) : t.opk = s.opk ∧ t.strict = s.strict ∧ t.stream = s.stream := by
  cases h with
  | sized => simp [sizeStep]
  | blocked => exact ⟨rfl, rfl, rfl⟩
  | advanced => exact ⟨rfl, rfl, rfl⟩
  | ok => simp [State.fetched]
  | failed => simp [State.fetched]

/-- While the operation runs on, the result registers and `STATUS` are not written (R15, R16, R112). -/
theorem RunEffect.keeps_results (h : RunEffect s t) (hb : t.busy = true) :
    t.value = s.value ∧ t.count = s.count ∧ t.status = s.status ∧ t.draws = s.draws := by
  rcases h.ends_or_goes_on with ⟨hend, -⟩ | ⟨-, rfl⟩ | ⟨b, -, -, -, rfl⟩
  · rw [hb] at hend; cases hend
  · exact ⟨rfl, rfl, rfl, rfl⟩
  · exact ⟨rfl, rfl, rfl, rfl⟩

/-- Only an accumulate writes the loop registers (R112, R114). -/
theorem RunEffect.keeps_loop (h : RunEffect s t) (hb : s.busy = true) (hend : t.busy = false ∨ s.opk = false) :
    t.acc = s.acc ∧ t.shift = s.shift ∧ t.idx = s.idx := by
  cases h with
  | sized => simp [sizeStep]
  | blocked => exact ⟨rfl, rfl, rfl⟩
  | advanced b ho =>
    rcases hend with hb' | ho'
    · exact absurd (hb.symm.trans hb') (by decide)
    · exact absurd (ho.symm.trans ho') (by decide)
  | ok => simp [State.fetched]
  | failed => simp [State.fetched]

/-! ### Completion codes, and what a request finds in a stream -/

/-- The numeric codes are distinct (R170). -/
theorem codeBits_injective : Function.Injective Code.bits := by
  intro c c' h
  cases c <;> cases c' <;> simp_all [Code.bits]

/-- What a request to a stream can find (R42). -/
theorem nextInput_stream_cases (hs : s.stream = true) :
    (∃ b, s.nextInput = some (.byte b) ∧ s.strm = .byte b :: s.fetched.strm) ∨
    (s.nextInput = some .eof ∧ (s.strm = .eof :: s.fetched.strm ∨ s.strm = [] ∧ s.strmAfter = .closed)) ∨
    (s.nextInput = none ∧ (s.strm = .notYet :: s.fetched.strm ∨ s.strm = [] ∧ s.strmAfter = .silent)) := by
  simp only [State.nextInput, State.fetched, hs, if_true]
  cases s.strm with
  | nil => cases s.strmAfter <;> simp
  | cons e q => cases e <;> simp

/-- A byte that answers is the head of the stream, and is removed from it (R42). -/
theorem strm_of_byte (hs : s.stream = true) (hin : s.nextInput = some (.byte b)) : s.strm = .byte b :: s.fetched.strm := by
  simpa [hin] using nextInput_stream_cases hs

/-- An End that answers is the stream's own, or that of a closed stream with nothing left (R42). -/
theorem strm_of_eof (hs : s.stream = true) (hin : s.nextInput = some .eof) :
    s.strm = .eof :: s.fetched.strm ∨ s.strm = [] ∧ s.strmAfter = .closed := by
  simpa [hin] using nextInput_stream_cases hs

/-- A source that does not answer is a stream that delays, or a silent one (R42, R206). -/
theorem strm_of_none (hin : s.nextInput = none) :
    s.strm = .notYet :: s.fetched.strm ∨ s.strm = [] ∧ s.strmAfter = .silent := by
  simpa [hin] using nextInput_stream_cases (stream_of_nextInput_none hin)

end Sys2Proof.Machine
end

section
open Sys2Proof Sys2Proof.Machine

/-- Settles O13: a command asked for outside phase RUN starts, and the `CMD` write of its word asks for it. -/
theorem startLatchesAndClears : Obligations.StartLatchesAndClears := by
  unfold Obligations.StartLatchesAndClears
  intro s w i hb hi
  obtain rfl := decodeCmd_eq_command_iff.mp hi
  refine ⟨_, exec_of_not_busy i hb, fun rest hhost => ?_, statusWith_busy .., statusWith_done .., statusWith_code ..,
    statusWith_reserved ..⟩
  rw [step_cmdWrite hb hhost hi]
  exact exec_of_not_busy (s := { s with host := rest }) i hb

/-- Settles O14: with a value and with a fresh draw; a finished unit is not busy, so its turn does nothing. -/
theorem finishWritesResults : Obligations.FinishWritesResults := by
  unfold Obligations.FinishWritesResults
  intro s code v n
  refine ⟨statusWith false true code.bits s.status, ?_, statusWith_busy .., statusWith_done .., statusWith_code ..,
    statusWith_reserved .., fun hhost => ?_⟩
  · cases v with
    | none => rfl
    | some x => rfl
  · rw [step_of_no_host (by rwa [finish_host]), afterTurn_of_not_busy (finish_busy ..)]

/-- Settles O25: the step on an End answer by source kind, and the only policies that raise each of the three kinds. -/
theorem endOfSourceByKind : Obligations.EndOfSourceByKind := by
  unfold Obligations.EndOfSourceByKind
  refine ⟨fun s hb ho hs hlen => ?_, fun s hb ho hs hin h0 => ?_, fun s hb ho hs hin h0 => ?_, fun s hs hin => ?_,
    fun i s t hb h hend => ?_⟩
  · have hin : s.nextInput = some .eof := by rw [nextInput_buffer hs, bufferNext, if_neg (Nat.not_lt.mpr hlen)]
    rw [exec_running_decode hb ho hin, decStep_eof, fetched_of_buffer hs, hs]
    rfl
  · rw [exec_running_decode hb ho hin, decStep_eof, fetched_of_stream hs, hs]
    simp [endOfSource, raise, h0]
  · rw [exec_running_decode hb ho hin, decStep_eof, fetched_of_stream hs, hs]
    simp [endOfSource, raise, h0]
  · rw [← fetched_of_stream hs]
    rcases strm_of_eof hs hin with hq | ⟨hq, -⟩
    · simp [hq]
    · rw [fetched_of_no_event hq]
  · cases ho : s.opk with
    | false =>
      obtain ⟨-, rfl⟩ := exec_of_busy hb h
      rw [unitStep_size ho, sizeStep, finish_code]
      exact ⟨fun hc => absurd hc (by decide), fun hc => absurd hc (by decide)⟩
    | true =>
      obtain ⟨inp, c, v, n, -, hdone, rfl⟩ := exec_decode_ends hb ho h hend
      obtain ⟨hbuffer, hstream⟩ := decStep_end_kind hdone
      rw [finish_code]
      exact ⟨fun hc => ⟨rfl, hbuffer (codeBits_injective hc)⟩,
        fun hc => ⟨rfl, hstream (hc.imp (codeBits_injective ·) (codeBits_injective ·))⟩⟩

/-- Settles O23: the accumulate below the cap, where only DECP.B has an index above 8, and DECP.B at index 10. -/
theorem continuingStepAccumulates : Obligations.ContinuingStepAccumulates := by
  unfold Obligations.ContinuingStepAccumulates
  refine ⟨fun i s t b hi hb hin h hon => ?_, fun s hb hrun hten => ?_⟩
  · obtain ⟨hc, hcap, rfl⟩ := exec_decode_goes_on hb hin h hon
    refine ⟨hc, rfl, fun hinv hnine => ?_⟩
    obtain ⟨-, ⟨hshift, -⟩, -⟩ := hinv
    have height : s.idx.toNat ≤ 8 := by
      rw [(exec_of_busy hb h).1] at hcap
      by_cases hdecpB : i = .decpB
      · subst hdecpB
        have hne : s.idx.toNat ≠ 9 := fun h9 => hnine ⟨rfl, BitVec.eq_of_toNat_eq h9⟩
        have hlt : s.idx.toNat < 10 := hcap
        omega
      · have := idxCap_le_nine hdecpB
        omega
    rw [hshift]
    exact group_fits b height
  · obtain ⟨ho, hs⟩ := running_buffer.mp (.inl hrun)
    have hstep := exec_running hb
    rw [hrun] at hstep
    rw [hstep]
    simp only [unitStep, decodeStep_buffer _ hs]
    exact (policyDecpB_ten hten (bufferNext s)).imp (fun hout => by rw [hout]; rfl) fun hout => by rw [hout]; rfl

/-- Settles O33: the kinds of unit step one by one. -/
theorem runStepFrame : Obligations.RunStepFrame := by
  unfold Obligations.RunStepFrame
  intro i s t hb h
  have heffect := exec_busy_effect hb h
  obtain ⟨ho, hstrict, hstream⟩ := heffect.latches
  refine ⟨ho, hstrict, hstream, heffect.keeps_results, fun hend => heffect.keeps_loop hb (hend.imp_right fun hi => ?_)⟩
  exact running_eq_size.mp ((exec_of_busy hb h).1.trans hi)
end

section
/-! SUPPORT. Whole runs of a decode left alone by the host: the value it delivers (R113, R133), its bound (R116), and the iteration
of the pure step that it is (R119). -/

namespace Sys2Proof.Machine

variable {strict stream : Bool} {i : Instr} {s t : State} {b : Byte} {d : List Byte}

/-! ### Runs -/

/-- With no action of the host to come, a unit that is not busy stays as it is (R187). -/
theorem run_of_not_busy (hhost : s.host = []) (hb : s.busy = false) (k : Nat) : core.run k s = .next s := by
  induction k with
  | zero => rfl
  | succ k ih => rw [run_succ k (step_of_no_host hhost), afterTurn_of_not_busy hb, ih]

/-- A running decode that the host leaves alone. -/
structure State.Decoding (s : State) : Prop where
  host : s.host = []
  busy : s.busy = true
  opk : s.opk = true

theorem State.Decoding.fetched (h : s.Decoding) : s.fetched.Decoding := ⟨h.host, h.busy, h.opk⟩

theorem State.Decoding.goOn (h : s.Decoding) (l : Loop) : (s.apply (.goOn l)).Decoding := ⟨h.host, h.busy, h.opk⟩

/-- Its step while the source has not answered (R206). -/
theorem State.Decoding.step_unanswered (h : s.Decoding) (hin : s.nextInput = none) : step s = .next s.fetched := by
  rw [step_of_no_host h.host, afterTurn, if_pos h.busy, unitStep_decode h.opk, hin, Option.elim_none]

/-- Its step on an answer (R115, R119). -/
theorem State.Decoding.step_answered (h : s.Decoding) {inp : Input} (hin : s.nextInput = some inp) :
    step s = .next (s.fetched.apply (decStep s.strict s.stream s.loop inp)) := by
  rw [step_of_no_host h.host, afterTurn, if_pos h.busy, unitStep_decode h.opk, hin, Option.elim_some]

/-- The start of a decode command (R110). -/
theorem State.Decoding.start (hhost : s.host = []) (strict stream : Bool) :
    (s.start (encode (decodeCommand strict stream))).Decoding :=
  ⟨hhost, start_busy .., (start_decodeCommand s strict stream).1⟩

/-! ### The value of a terminal byte that loses no bit -/

/-- Nine groups and a tenth of at most one bit fit in 64 bits (R133, R153). -/
theorem toNat_termValue_of_takes (hd : d.length ≤ 10) (hb : contFlag b = false) (h : (Loop.after d).Takes b) :
    (termValue (Loop.after d) b).toNat = logicalValue (d ++ [b]) := by
  obtain ⟨hnine, hlast⟩ := h
  rw [Loop.after_idx_toNat hd] at hnine hlast
  rw [toNat_termValue_after hb hnine, Nat.mod_eq_of_lt]
  rcases Nat.lt_or_eq_of_le hnine with hlt | h9
  · refine (logicalValue_lt (d ++ [b])).trans_le (Nat.pow_le_pow_right (by decide) ?_)
    rw [List.length_append, List.length_singleton]
    omega
  · have hlow := logicalValue_lt d
    have hhigh := hlast h9
    rw [logicalValue_concat, toNat_group_of_terminal hb, h9]
    rw [h9] at hlow
    omega

/-- A decode that ends OK on an answer after the bytes `d`: its answer is a terminal byte, and the value that of all of them. -/
theorem decStep_ok_after {inp : Input} {v : Option Word} {n : BitVec 4} (hcont : ∀ x ∈ d, contFlag x = true)
    (hcap : d.length ≤ idxCap (decodeCommand strict stream))
    (h : decStep strict stream (Loop.after d) inp = .done .ok v n) :
    ∃ b x, inp = .byte b ∧ v = some x ∧ n.toNat = d.length + 1 ∧ isEncoded (d ++ [b]) = true ∧
      x.toNat = logicalValue (d ++ [b]) := by
  have hten := idxCap_le_ten (decodeCommand strict stream)
  have hd : d.length ≤ 10 := by omega
  obtain ⟨b, rfl, hb, rfl, rfl, htakes⟩ := decStep_ok h
  rw [Loop.after_idx_toNat hd] at htakes
  refine ⟨b, _, rfl, rfl, toNat_succ_after_idx hd, ?_, toNat_termValue_of_takes hd hb (htakes hcap)⟩
  rw [isEncoded_concat, hb, List.all_eq_true.mpr hcont]
  rfl

theorem loop_eq_of_toNat_eq {l l' : Loop} (hacc : l.acc.toNat = l'.acc.toNat) (hshift : l.shift.toNat = l'.shift.toNat)
    (hidx : l.idx.toNat = l'.idx.toNat) : l = l' := by
  obtain ⟨acc, shift, idx⟩ := l
  rw [Loop.mk.injEq]
  exact ⟨BitVec.eq_of_toNat_eq hacc, BitVec.eq_of_toNat_eq hshift, BitVec.eq_of_toNat_eq hidx⟩

/-- In the states of the invariants, the loop registers of a buffer decode are those after the bytes read (R17 to R19). -/
theorem loop_eq_after (hinv : s.Inv) (hread : s.BufferRead) (hb : s.busy = true) (ho : s.opk = true)
    (hs : s.stream = false) : s.loop = Loop.after (s.bufBytes s.idx.toNat) := by
  obtain ⟨-, ⟨hshift, hidx, -⟩, -⟩ := hinv
  obtain ⟨-, -, hacc⟩ := hread hb ho hs
  have hlen := bufBytes_length s s.idx.toNat
  have hcap := idxCap_le_ten s.running
  have hd : (s.bufBytes s.idx.toNat).length ≤ 10 := by omega
  refine loop_eq_of_toNat_eq ?_ ?_ ?_
  · rw [Loop.after_acc hd, hacc]
  · rw [Loop.after_shift_toNat hd, hshift, hlen]
  · rw [Loop.after_idx_toNat hd, hlen]

/-! ### A stream decode over its whole run -/

theorem answersOf_append (p q : List SrcEvent) : answersOf (p ++ q) = answersOf p ++ answersOf q := by
  induction p with
  | nil => rfl
  | cons e p ih => cases e <;> simp [answersOf, ih]

/-- A running stream decode, left alone, that has so far taken the bytes `d` from a source that had the answers `q` to give. -/
structure State.HasTaken (q : List SrcEvent) (d : List Byte) (s : State) : Prop where
  decoding : s.Decoding
  stream : s.stream = true
  taken : ∃ p, q = p ++ s.strm ∧ answersOf p = d.map Input.byte
  loop : s.loop = Loop.after d
  cont : ∀ b ∈ d, contFlag b = true
  cap : d.length ≤ idxCap (decodeCommand s.strict s.stream)

variable {q : List SrcEvent}

theorem State.HasTaken.start (hhost : s.host = []) (strict : Bool) :
    (s.start (encode (decodeCommand strict true))).HasTaken s.strm [] where
  decoding := .start hhost strict true
  stream := (start_decodeCommand s strict true).2.2
  taken := ⟨[], rfl, rfl⟩
  loop := rfl
  cont := by simp
  cap := Nat.zero_le _

/-- A step without an answer takes no byte (R206). -/
theorem State.HasTaken.unanswered (h : s.HasTaken q d) (hin : s.nextInput = none) : s.fetched.HasTaken q d where
  decoding := h.decoding.fetched
  stream := h.stream
  taken := by
    obtain ⟨p, hq, hp⟩ := h.taken
    rcases strm_of_none hin with hstrm | ⟨hstrm, -⟩
    · exact ⟨p ++ [.notYet], by rw [hq, hstrm]; simp, by simp [answersOf_append, hp, answersOf]⟩
    · exact ⟨p, by rw [fetched_of_no_event hstrm, hq], hp⟩
  loop := h.loop
  cont := h.cont
  cap := h.cap

/-- A byte that answers is taken off the source. -/
theorem State.HasTaken.taken_byte (h : s.HasTaken q d) (hin : s.nextInput = some (.byte b)) :
    ∃ p, q = p ++ s.fetched.strm ∧ answersOf p = (d ++ [b]).map Input.byte := by
  obtain ⟨p, hq, hp⟩ := h.taken
  exact ⟨p ++ [.byte b], by rw [hq, strm_of_byte h.stream hin]; simp, by simp [answersOf_append, hp, answersOf]⟩

/-- A continuation byte below the cap joins the bytes taken (R112, R116). -/
theorem State.HasTaken.push (h : s.HasTaken q d) (hin : s.nextInput = some (.byte b)) (hc : contFlag b = true)
    (hi : s.idx.toNat < idxCap s.running) : (s.fetched.apply (.goOn (s.loop.push b))).HasTaken q (d ++ [b]) where
  decoding := h.decoding.fetched.goOn _
  stream := h.stream
  taken := h.taken_byte hin
  loop := by
    rw [Loop.after_concat, ← h.loop]
    rfl
  cont x hx := by
    rcases List.mem_append.mp hx with hx | hx
    · exact h.cont x hx
    · rwa [List.mem_singleton.mp hx]
  cap := by
    have hcap := h.cap
    have hten := idxCap_le_ten (decodeCommand s.strict s.stream)
    have hidx : s.idx.toNat = d.length := by rw [← Loop.after_idx_toNat (d := d) (by omega), ← h.loop]
    rw [running_eq_decodeCommand h.decoding.opk, hidx] at hi
    rw [List.length_append, List.length_singleton]
    exact hi

/-- However long the source takes for each answer, a stream decode that completes OK has taken an encoded value and delivers the
logical value of it (R113, R133, R153). -/
theorem State.HasTaken.run_ok {k n : Nat} (h : s.HasTaken q d) (hrun : core.run k s = .next t)
    (hend : t.Completed .ok n) :
    ∃ (p : List SrcEvent) (e : List Byte), q = p ++ t.strm ∧ answersOf p = e.map Input.byte ∧ e.length = n ∧
      isEncoded e = true ∧ t.value.toNat = logicalValue e := by
  obtain ⟨hnot, -, hcode, hcount⟩ := hend
  induction k generalizing s d with
  | zero =>
    cases hrun
    exact absurd (h.decoding.busy.symm.trans hnot) (by decide)
  | succ k ih =>
    cases hin : s.nextInput with
    | none =>
      rw [run_succ k (h.decoding.step_unanswered hin)] at hrun
      exact ih (h.unanswered hin) hrun
    | some inp =>
      rw [run_succ k (h.decoding.step_answered hin)] at hrun
      cases hout : decStep s.strict s.stream s.loop inp with
      | goOn l =>
        have hcap := decStep_outcome h.decoding.opk s.loop inp
        rw [hout] at hrun hcap
        cases hcap with
        | goOn b hc hi => exact ih (h.push hin hc hi) hrun
      | done c v m =>
        rw [hout, apply_done, run_of_not_busy (by rw [finish_host]; exact h.decoding.host) (finish_busy ..)] at hrun
        cases hrun
        rw [finish_code] at hcode
        obtain rfl := codeBits_injective hcode
        rw [h.loop] at hout
        obtain ⟨b, x, rfl, rfl, hm, henc, hx⟩ := decStep_ok_after h.cont h.cap hout
        obtain ⟨p, hq, hp⟩ := h.taken_byte hin
        refine ⟨p, d ++ [b], by rw [finish_strm, hq], hp, ?_, henc, hx⟩
        rw [List.length_append, List.length_singleton, ← hm, ← hcount, finish_count]

/-! ### The bound of a running operation -/

/-- A closed stream of bytes answers every request (R42). -/
theorem State.StreamIs.nextInput_ne_none (h : s.StreamIs d) : s.nextInput ≠ none := by
  intro hin
  obtain ⟨hstrm, hafter⟩ := h
  rcases strm_of_none hin with hq | ⟨-, hsilent⟩
  · rw [hstrm] at hq
    cases d <;> simp at hq
  · rw [hafter] at hsilent; cases hsilent

/-- And it stays one. -/
theorem State.StreamIs.fetched (h : s.StreamIs d) (hs : s.stream = true) : s.fetched.StreamIs d.tail := by
  obtain ⟨hstrm, hafter⟩ := h
  exact ⟨by rw [fetched_strm_of_stream hs, hstrm, List.map_tail], hafter⟩

theorem State.Inv.idx_le_cap (h : s.Inv) : s.idx.toNat ≤ idxCap s.running := by
  obtain ⟨-, ⟨-, hcap, -⟩, -⟩ := h
  exact hcap

/-- Left alone, an operation that is never blocked takes one step for each index up to its cap, and one that ends it (R116). -/
theorem run_terminates (hinv : s.Inv) (hb : s.busy = true) (hhost : s.host = [])
    (hsource : s.stream = true → s.StreamIs d) :
    ∃ (k : Nat) (t : State), k ≤ idxCap s.running + 1 - s.idx.toNat ∧ core.run k s = .next t ∧
      t.busy = false ∧ t.done = true := by
  have hcap := hinv.idx_le_cap
  induction hm : idxCap s.running + 1 - s.idx.toNat generalizing s d with
  | zero => omega
  | succ m ih =>
    have hstep := step_of_no_host hhost
    rcases (afterTurn_effect hb).ends_or_goes_on with hend | ⟨hnone, -⟩ | ⟨b, hin, -, hi, hturn⟩
    · exact ⟨1, _, by omega, run_succ 0 hstep, hend⟩
    · exact absurd hnone (hsource (stream_of_nextInput_none hnone)).nextInput_ne_none
    · have hinv' := hinv.of_afterTurn
      rw [hturn] at hinv' hstep
      have hten := idxCap_le_ten s.running
      have hidx : (s.idx + 1#4).toNat = s.idx.toNat + 1 := toNat_succ_idx (by omega)
      have hm' : idxCap s.running + 1 - (s.idx + 1#4).toNat = m := by omega
      obtain ⟨k, t, hk, hrun, hend⟩ :=
        ih hinv' hb hhost (fun hs => (hsource hs).fetched hs) hinv'.idx_le_cap hm'
      exact ⟨k + 1, t, by omega, (run_succ k hstep).trans hrun, hend⟩

/-! ### The iteration of the pure step -/

/-- The answers that the source of a decode has still to give (R42, R111). -/
def State.answers (s : State) : List Input :=
  if s.stream then answersOf s.strm ++ (if s.strmAfter = .closed then [.eof] else [])
  else ((s.bufBytes s.bufLen).drop s.idx.toNat).map Input.byte ++ [.eof]

theorem answers_of_stream (hs : s.stream = true) :
    s.answers = answersOf s.strm ++ (if s.strmAfter = .closed then [.eof] else []) := by
  simp [State.answers, hs]

theorem answers_of_buffer (hs : s.stream = false) :
    s.answers = ((s.bufBytes s.bufLen).drop s.idx.toNat).map Input.byte ++ [.eof] := by
  simp [State.answers, hs]

/-- A request that is not answered leaves the answers to come as they are (R206). -/
theorem answers_fetched_of_none (hin : s.nextInput = none) : s.fetched.answers = s.answers := by
  have hs := stream_of_nextInput_none hin
  rcases strm_of_none hin with hstrm | ⟨hstrm, -⟩
  · rw [answers_of_stream hs, hstrm]
    exact answers_of_stream (s := s.fetched) hs
  · rw [fetched_of_no_event hstrm]

/-- A byte read at `IDX` is the first of the buffer's bytes from there on (R111). -/
theorem bufBytes_drop (h : s.idx.toNat < s.bufLen) :
    (s.bufBytes s.bufLen).drop s.idx.toNat =
      Memory.read s.buf s.idx.toNat :: (s.bufBytes s.bufLen).drop (s.idx.toNat + 1) := by
  rw [List.drop_eq_getElem_cons (by rwa [bufBytes_length])]
  simp [State.bufBytes]

/-- The next input is the first of the answers to come; a byte accumulated, the others are left (R42, R111, R112). -/
theorem answers_of_some {inp : Input} (hin : s.nextInput = some inp) :
    ∃ rest, s.answers = inp :: rest ∧
      ∀ (b : Byte) (l : Loop), inp = .byte b → l.idx.toNat = s.idx.toNat + 1 →
        (s.fetched.apply (.goOn l)).answers = rest := by
  cases hs : s.stream with
  | true =>
    rw [answers_of_stream hs]
    cases inp with
    | byte b =>
      rw [strm_of_byte hs hin]
      exact ⟨_, rfl, fun _ l _ _ => answers_of_stream (s := s.fetched.apply (.goOn l)) hs⟩
    | eof =>
      rcases strm_of_eof hs hin with hstrm | ⟨hstrm, hafter⟩
      · rw [hstrm]
        exact ⟨_, rfl, nofun⟩
      · rw [hstrm, hafter]
        exact ⟨_, rfl, nofun⟩
  | false =>
    rw [answers_of_buffer hs]
    rw [nextInput_buffer hs, bufferNext] at hin
    split at hin
    · next hlt =>
      cases hin
      rw [bufBytes_drop hlt]
      refine ⟨_, rfl, fun _ l _ hl => ?_⟩
      rw [← hl]
      exact answers_of_buffer (s := s.fetched.apply (.goOn l)) hs
    · next hge =>
      cases hin
      rw [List.drop_eq_nil_of_le (by rw [bufBytes_length]; omega)]
      exact ⟨_, rfl, nofun⟩

/-- A source that has still an answer to give and gives none now is a stream that delays (R42). -/
theorem strm_of_delay {inp : Input} {rest : List Input} (hin : s.nextInput = none) (h : s.answers = inp :: rest) :
    s.strm = .notYet :: s.fetched.strm := by
  rcases strm_of_none hin with hstrm | ⟨hstrm, hafter⟩
  · exact hstrm
  · rw [answers_of_stream (stream_of_nextInput_none hin), hstrm, hafter] at h
    cases h

/-- While an answer is to come, a decode left alone reaches the state in which it is given, and nothing but the stream has changed
(R42, R206). -/
theorem State.Decoding.run_to_answer {s : State} {inp : Input} {rest : List Input} (h : s.Decoding)
    (hanswers : s.answers = inp :: rest) :
    ∃ (j : Nat) (u : State), OnlyStream s u ∧ u.Decoding ∧ u.nextInput = some inp ∧ u.answers = inp :: rest ∧
      ∀ k, core.run (k + j) s = core.run k u := by
  cases hin : s.nextInput with
  | some inp' =>
    obtain ⟨_, hanswers', -⟩ := answers_of_some hin
    rw [hanswers] at hanswers'
    cases hanswers'
    exact ⟨0, s, .refl s, h, hin, hanswers, fun _ => rfl⟩
  | none =>
    obtain ⟨j, u, ⟨q, rfl⟩, hu, hin', hanswers', hrun⟩ :=
      h.fetched.run_to_answer ((answers_fetched_of_none hin).trans hanswers)
    exact ⟨j + 1, _, ⟨q, rfl⟩, hu, hin', hanswers', fun k => (run_succ _ (h.step_unanswered hin)).trans (hrun k)⟩
termination_by s.strm.length
decreasing_by
  rw [strm_of_delay hin hanswers]
  exact Nat.lt_succ_self _

/-- A running decode left alone completes as the iteration of the pure step over the answers of its source says (R119). -/
theorem run_decodeRun {answers : List Input} {c : Code} {v : Option Word} {n : BitVec 4} (h : s.Decoding)
    (hcap : s.idx.toNat ≤ idxCap s.running) (hanswers : s.answers = answers)
    (hdone : decodeRun s.strict s.stream s.loop answers = some (c, v, n)) :
    ∃ (k : Nat) (t : State), core.run k s = .next t ∧ t.host = [] ∧ t.Completed c n.toNat ∧
      (∀ x, v = some x → t.value = x) := by
  induction answers generalizing s with
  | nil => cases hdone
  | cons inp rest ih =>
    obtain ⟨j, u, ⟨q, rfl⟩, hu, hin, hanswers', hrun⟩ := h.run_to_answer hanswers
    have hstep := hu.step_answered hin
    have hout := decStep_outcome h.opk s.loop inp
    rw [decodeRun] at hdone
    cases hpolicy : decStep s.strict s.stream s.loop inp with
    | done c' v' n' =>
      rw [hpolicy] at hdone
      cases hdone
      rw [hpolicy] at hstep
      refine ⟨1 + j, _, (hrun 1).trans (run_succ 0 hstep), ?_, ⟨finish_busy .., finish_done .., finish_code .., ?_⟩, ?_⟩
      · rw [apply_done, finish_host]
        exact hu.host
      · rw [apply_done, finish_count]
      · rintro x rfl
        rfl
    | goOn l =>
      rw [hpolicy] at hdone hstep hout
      cases hout with
      | goOn b hc hi =>
        have hten := idxCap_le_ten s.running
        have hidx : (s.idx + 1#4).toNat = s.idx.toNat + 1 := toNat_succ_idx (by omega)
        obtain ⟨rest', hrest, hleft⟩ := answers_of_some hin
        rw [hanswers'] at hrest
        cases hrest
        obtain ⟨k, t, hrun', hend⟩ :=
          ih (hu.fetched.goOn (s.loop.push b)) (hidx.le.trans hi) (hleft b _ rfl hidx) hdone
        exact ⟨k + 1 + j, t, (hrun _).trans ((run_succ k hstep).trans hrun'), hend⟩

/-! ### The decode commands -/

theorem exists_decodeCommand (hi : i ≠ .size) : ∃ strict stream, i = decodeCommand strict stream := by
  cases i with
  | size => exact absurd rfl hi
  | decpB => exact ⟨false, false, rfl⟩
  | decpS => exact ⟨false, true, rfl⟩
  | decsB => exact ⟨true, false, rfl⟩
  | decsS => exact ⟨true, true, rfl⟩

/-- The mode latches of a decode command, read off the command (R67). -/
theorem decodeCommand_latches (strict stream : Bool) :
    decide (decodeCommand strict stream = .decsB ∨ decodeCommand strict stream = .decsS) = strict ∧
      decide (decodeCommand strict stream = .decpS ∨ decodeCommand strict stream = .decsS) = stream := by
  cases strict <;> cases stream <;> decide

theorem decodeCommand_buffer (strict : Bool) :
    decodeCommand strict false = .decpB ∨ decodeCommand strict false = .decsB := by cases strict <;> decide

theorem decodeCommand_stream (strict : Bool) :
    decodeCommand strict true = .decpS ∨ decodeCommand strict true = .decsS := by cases strict <;> decide

/-- A command that decodes a stream is a decode command of the stream kind. -/
theorem eq_decodeCommand_of_stream (hi : i = .decpS ∨ i = .decsS) : ∃ strict, i = decodeCommand strict true := by
  rcases hi with rfl | rfl
  · exact ⟨false, rfl⟩
  · exact ⟨true, rfl⟩

end Sys2Proof.Machine
end

section
open Sys2Proof Sys2Proof.Machine

/-- Settles O24: on a buffer the last step, on a stream the whole run, each from what the decode has read before its last byte. -/
theorem okDeliversLogicalValue : Obligations.OkDeliversLogicalValue := by
  unfold Obligations.OkDeliversLogicalValue
  refine ⟨fun i s t hinv hread hb ho hs h hend hcode => ?_, fun i s t k n hi hissue hrun hhost hend => ?_⟩
  · obtain ⟨inp, c, v, m, hin, hdone, rfl⟩ := exec_decode_ends hb ho h hend
    rw [finish_code] at hcode
    obtain rfl := codeBits_injective hcode
    obtain ⟨-, hcont, -⟩ := hread hb ho hs
    have hlen := bufBytes_length s s.idx.toNat
    have hcap := hinv.idx_le_cap
    rw [loop_eq_after hinv hread hb ho hs] at hdone
    rw [running_eq_decodeCommand ho] at hcap
    obtain ⟨b, x, rfl, rfl, hcount, henc, hvalue⟩ :=
      decStep_ok_after (by simpa [State.bufBytes] using hcont) (by rwa [hlen]) hdone
    obtain ⟨-, rfl⟩ := buffer_byte hs hin
    rw [← bufBytes_succ] at henc hvalue
    exact ⟨by rw [finish_count, hcount, hlen], henc, hvalue⟩
  · obtain ⟨strict, rfl⟩ := eq_decodeCommand_of_stream hi
    cases k with
    | zero =>
      cases hrun
      exact absurd (hissue.2.symm.trans hhost) (by simp)
    | succ k =>
      rw [run_succ k (step_of_issues hissue)] at hrun
      exact (State.HasTaken.start (s := { s with host := [] }) rfl strict).run_ok hrun hend

/-- Settles O43: a step for each index up to the cap, and one that ends the operation. -/
theorem operationTerminates : Obligations.OperationTerminates :=
  fun _ _ hinv hb hhost hsource => run_terminates hinv hb hhost hsource

/-- Settles O46: the start, and the iteration from the loop registers that it leaves. -/
theorem machineIteratesDecStep : Obligations.MachineIteratesDecStep := by
  unfold Obligations.MachineIteratesDecStep
  intro s i answers code v n hi hissue hbuffer hstream hdone
  obtain ⟨strict, stream, rfl⟩ := exists_decodeCommand hi
  obtain ⟨hstrict, hstream'⟩ := decodeCommand_latches strict stream
  rw [hstrict, hstream'] at hdone
  obtain ⟨ho, hlatch, hkind⟩ := start_decodeCommand { s with host := [] } strict stream
  have hanswers : (({ s with host := [] } : State).start (encode (decodeCommand strict stream))).answers = answers := by
    cases stream with
    | false => rw [answers_of_buffer hkind, hbuffer (decodeCommand_buffer strict)]; rfl
    | true => rw [answers_of_stream hkind, hstream (decodeCommand_stream strict)]; rfl
  obtain ⟨k, t, hrun, hend⟩ :=
    run_decodeRun (.start (s := { s with host := [] }) rfl strict stream) (Nat.zero_le _) hanswers
      (by rw [hlatch, hkind]; exact hdone)
  exact ⟨k + 1, t, (run_succ k (step_of_issues hissue)).trans hrun, hend⟩
end

section
/-! SUPPORT. One step of a permissive decode, and the codes and counts with which each command completes (R130, R131, R170). -/

namespace Sys2Proof.Machine

variable {strict stream : Bool} {i : Instr} {s t : State} {l : Loop} {b : Byte} {inp : Input} {c : Code} {v : Option Word}
  {n : BitVec 4}

/-! ### The step of the decode that runs -/

/-- The latches of the decode that runs (R115). -/
theorem latches_of_running (h : s.running = decodeCommand strict stream) :
    s.opk = true ∧ s.strict = strict ∧ s.stream = stream := by
  unfold State.running at h
  cases strict <;> cases stream <;> split at h <;> simp_all [decodeCommand]

/-- The step of a running decode command on an answer of its source (R115, R119). -/
theorem exec_decodeCommand (hb : s.busy = true) (hrun : s.running = decodeCommand strict stream)
    (hin : s.nextInput = some inp) :
    exec (decodeCommand strict stream) s = .next (s.fetched.apply (decStep strict stream s.loop inp)) := by
  obtain ⟨ho, rfl, rfl⟩ := latches_of_running hrun
  rw [← hrun, exec_running_decode hb ho hin]

/-! ### The codes and counts of completions -/

/-- The codes, and with each the counts, with which a command can complete (R90, R130, R131, R150, R151, R170). -/
def CompletionOf (i : Instr) (code count : BitVec 4) : Prop :=
  match i with
  | .size => code = Code.ok.bits ∧ 1 ≤ count.toNat ∧ count.toNat ≤ 10
  | .decpB =>
    (code = Code.ok.bits ∧ 1 ≤ count.toNat ∧ count.toNat ≤ 10) ∨
    (code = Code.overflow.bits ∧ (count = 10#4 ∨ count = 11#4)) ∨
    (code = Code.truncated.bits ∧ count.toNat ≤ 10)
  | .decpS =>
    (code = Code.ok.bits ∧ 1 ≤ count.toNat ∧ count.toNat ≤ 10) ∨
    (code = Code.overflow.bits ∧ count = 10#4) ∨
    (code = Code.endOfInput.bits ∧ count = 0#4) ∨
    (code = Code.unexpectedEnd.bits ∧ 1 ≤ count.toNat ∧ count.toNat ≤ 9)
  | .decsB =>
    (code = Code.ok.bits ∧ 1 ≤ count.toNat ∧ count.toNat ≤ 9) ∨
    (code = Code.overflow.bits ∧ count = 9#4) ∨
    (code = Code.nonMinimal.bits ∧ 2 ≤ count.toNat ∧ count.toNat ≤ 9) ∨
    (code = Code.truncated.bits ∧ count.toNat ≤ 8)
  | .decsS =>
    (code = Code.ok.bits ∧ 1 ≤ count.toNat ∧ count.toNat ≤ 9) ∨
    (code = Code.overflow.bits ∧ count = 9#4) ∨
    (code = Code.nonMinimal.bits ∧ 2 ≤ count.toNat ∧ count.toNat ≤ 9) ∨
    (code = Code.endOfInput.bits ∧ count = 0#4) ∨
    (code = Code.unexpectedEnd.bits ∧ 1 ≤ count.toNat ∧ count.toNat ≤ 8)

/-- The count with a byte read is at least 1 and at most one more than the bound of `IDX`. -/
theorem count_with_byte {m : Nat} (hi : l.idx.toNat ≤ m) (hm : m ≤ 10) :
    1 ≤ (l.idx + 1#4).toNat ∧ (l.idx + 1#4).toNat ≤ m + 1 := by
  have hsucc : (l.idx + 1#4).toNat = l.idx.toNat + 1 := toNat_succ_idx (by omega)
  omega

/-- The end of a stream inside a value, or before it (R117). -/
theorem endOfSource_stream_completes {m : Nat} (hi : l.idx.toNat ≤ m) (h : endOfSource true l = .done c v n) :
    (c.bits = Code.endOfInput.bits ∧ n = 0#4) ∨ (c.bits = Code.unexpectedEnd.bits ∧ 1 ≤ n.toNat ∧ n.toNat ≤ m) := by
  simp only [endOfSource, Bool.not_true, Bool.false_eq_true, if_false] at h
  split at h
  · cases h
    exact .inl ⟨rfl, rfl⟩
  · next h0 =>
    cases h
    have hpos : l.idx.toNat ≠ 0 := fun hz => h0 (BitVec.eq_of_toNat_eq hz)
    exact .inr ⟨rfl, Nat.one_le_iff_ne_zero.mpr hpos, hi⟩

theorem policyDecpB_completes (hi : l.idx.toNat ≤ 10) (h : policyDecpB l inp = .done c v n) :
    CompletionOf .decpB c.bits n := by
  cases inp with
  | eof =>
    cases h
    exact .inr (.inr ⟨rfl, hi⟩)
  | byte b =>
    simp only [policyDecpB] at h
    split at h
    · next hten =>
      have hidx : l.idx = 10#4 := BitVec.eq_of_toNat_eq (Nat.le_antisymm hi hten)
      cases h
      exact .inr (.inl ⟨rfl, .inr (by rw [hidx]; rfl)⟩)
    · next hten =>
      split at h
      · split at h
        · cases h
          exact .inr (.inl ⟨rfl, .inl rfl⟩)
        · cases h
          exact .inl ⟨rfl, count_with_byte (m := 9) (by omega) (by decide)⟩
      · cases h

theorem policyDecpS_completes (hi : l.idx.toNat ≤ 9) (h : policyDecpS l inp = .done c v n) :
    CompletionOf .decpS c.bits n := by
  cases inp with
  | eof => exact .inr (.inr (endOfSource_stream_completes hi h))
  | byte b =>
    have hlast (h9 : 9 ≤ l.idx.toNat) : l.idx + 1#4 = 10#4 := by
      rw [show l.idx = 9#4 from BitVec.eq_of_toNat_eq (Nat.le_antisymm hi h9)]
      rfl
    simp only [policyDecpS] at h
    split at h
    · split at h
      · next hwide =>
        cases h
        exact .inr (.inl ⟨rfl, hlast hwide.1⟩)
      · cases h
        exact .inl ⟨rfl, count_with_byte hi (by decide)⟩
    · split at h
      · next h9 =>
        cases h
        exact .inr (.inl ⟨rfl, hlast h9⟩)
      · cases h

/-- How the strict mode ends on a byte, of either source kind (R150, R151). -/
theorem strictByte_completes (hi : l.idx.toNat ≤ 8) (hshift : l.shift.toNat = 7 * l.idx.toNat)
    (h : strictByte l b = .done c v n) :
    (c.bits = Code.ok.bits ∧ 1 ≤ n.toNat ∧ n.toNat ≤ 9) ∨ (c.bits = Code.overflow.bits ∧ n = 9#4) ∨
    (c.bits = Code.nonMinimal.bits ∧ 2 ≤ n.toNat ∧ n.toNat ≤ 9) := by
  unfold strictByte at h
  split at h
  · next hover =>
    have hidx : l.idx = 8#4 := BitVec.eq_of_toNat_eq (show l.idx.toNat = 8 by omega)
    cases h
    exact .inr (.inl ⟨rfl, by rw [hidx]; rfl⟩)
  · split at h
    · split at h
      · next hzero =>
        have hsucc : (l.idx + 1#4).toNat = l.idx.toNat + 1 := toNat_succ_idx (by omega)
        cases h
        exact .inr (.inr ⟨rfl, by omega, by omega⟩)
      · cases h
        exact .inl ⟨rfl, count_with_byte hi (by decide)⟩
    · cases h

theorem decStep_strict_completes (hi : l.idx.toNat ≤ 8) (hshift : l.shift.toNat = 7 * l.idx.toNat)
    (h : decStep true stream l inp = .done c v n) : CompletionOf (decodeCommand true stream) c.bits n := by
  cases inp with
  | eof =>
    rw [decStep_eof] at h
    cases stream with
    | false =>
      cases h
      exact .inr (.inr (.inr ⟨rfl, hi⟩))
    | true => exact .inr (.inr (.inr (endOfSource_stream_completes hi h)))
  | byte b =>
    rw [decStep_strict_byte] at h
    cases stream with
    | false => exact (strictByte_completes hi hshift h).imp_right fun hfail => hfail.imp_right .inl
    | true => exact (strictByte_completes hi hshift h).imp_right fun hfail => hfail.imp_right .inl

/-- A decode whose loop registers are legal ends with one of its command's completions. -/
theorem decStep_completes (hi : l.idx.toNat ≤ idxCap (decodeCommand strict stream))
    (hshift : l.shift.toNat = 7 * l.idx.toNat) (h : decStep strict stream l inp = .done c v n) :
    CompletionOf (decodeCommand strict stream) c.bits n := by
  cases strict with
  | true => exact decStep_strict_completes (hi.trans (by cases stream <;> decide)) hshift h
  | false =>
    cases stream with
    | false => exact policyDecpB_completes hi h
    | true => exact policyDecpS_completes hi h

/-- From the states of the invariant, the step that ends an operation leaves one of its command's completions (R114, R170). -/
theorem exec_completes (hinv : s.Inv) (hb : s.busy = true) (h : exec i s = .next t) (hend : t.busy = false) :
    t.done = true ∧ CompletionOf i t.code t.count := by
  obtain ⟨rfl, rfl⟩ := exec_of_busy hb h
  cases ho : s.opk with
  | false =>
    rw [unitStep_size ho, running_eq_size.mpr ho, sizeStep, finish_code, finish_count]
    refine ⟨finish_done .., rfl, ?_⟩
    rw [toNat_ofNat_size]
    exact ⟨size_pos _, size_le_ten _⟩
  | true =>
    obtain ⟨inp, c, v, n, -, hdone, hturn⟩ := exec_decode_ends hb ho h hend
    have hcap := hinv.idx_le_cap
    obtain ⟨-, ⟨hshift, -⟩, -⟩ := hinv
    rw [running_eq_decodeCommand ho] at hcap
    rw [hturn, finish_code, finish_count, running_eq_decodeCommand ho]
    exact ⟨finish_done .., decStep_completes hcap hshift hdone⟩

end Sys2Proof.Machine
end

section
open Sys2Proof Sys2Proof.Machine

/-- Settles O29: the completions of the policies within their caps, and of SIZE. -/
theorem completionsOfEachCommand : Obligations.CompletionsOfEachCommand := by
  unfold Obligations.CompletionsOfEachCommand
  intro i s t hinv hb h hend
  obtain ⟨hdone, hkind⟩ := exec_completes hinv hb h hend
  refine ⟨hdone, ?_⟩
  cases i <;> exact hkind

/-- Settles O30: the counts of DECP.B's completions are positive where the sentinel is not zero. -/
theorem sentinelOfDecpB : Obligations.SentinelOfDecpB := by
  unfold Obligations.SentinelOfDecpB
  refine ⟨fun n => ⟨rfl, rfl, rfl⟩, fun s t hinv hb h hend => ?_⟩
  obtain ⟨-, ⟨hcode, hpos, -⟩ | ⟨hcode, hcount⟩ | ⟨hcode, -⟩⟩ := exec_completes hinv hb h hend
  · exact ⟨.ok, t.count.toNat, hcode, rfl, iff_of_true (by omega) rfl, iff_of_false (by omega) nofun,
      iff_of_false (by omega) nofun⟩
  · have hpos : 0 < t.count.toNat := by rcases hcount with hn | hn <;> rw [hn] <;> decide
    exact ⟨.overflow, -t.count.toNat, hcode, rfl, iff_of_false (by omega) nofun, iff_of_false (by omega) nofun,
      iff_of_true (by omega) rfl⟩
  · exact ⟨.truncated, 0, hcode, rfl, by decide, by decide, by decide⟩

/-- Settles O19: the end of the buffer, and the branches of R130 on a byte. -/
theorem decpBStep : Obligations.DecpBStep := by
  unfold Obligations.DecpBStep
  intro s hb hrun
  have hs : s.stream = false := (running_buffer.mp (.inl hrun)).2
  have hstep : exec .decpB s = .next (s.fetched.apply (policyDecpB s.loop (bufferNext s))) :=
    exec_decodeCommand (strict := false) (stream := false) hb hrun (nextInput_buffer hs)
  rw [hstep, fetched_of_buffer hs]
  by_cases hlen : s.bufLen ≤ s.idx.toNat
  · rw [bufferNext, if_neg (Nat.not_lt.mpr hlen), if_pos hlen]
    rfl
  · rw [bufferNext, if_pos (Nat.not_le.mp hlen), if_neg hlen]
    simp only [policyDecpB, apply_ite s.apply, Bool.not_eq_true']
    rfl

/-- Settles O20: the end of the stream, and the branches of R131 on a byte. -/
theorem decpSStep : Obligations.DecpSStep := by
  unfold Obligations.DecpSStep
  intro s inp hb hrun hin
  have hs : s.stream = true := (running_stream.mp (.inl hrun)).2
  have hstep : exec .decpS s = .next (s.fetched.apply (policyDecpS s.loop inp)) :=
    exec_decodeCommand (strict := false) (stream := true) hb hrun hin
  rw [hstep, fetched_of_stream hs]
  cases inp with
  | eof =>
    simp only [policyDecpS, endOfSource, apply_ite s.streamTaken.apply, Bool.not_true, Bool.false_eq_true, if_false]
    rfl
  | byte b =>
    simp only [policyDecpS, apply_ite s.streamTaken.apply, Bool.not_eq_true']
    rfl
end

section
/-! SUPPORT. Whole decodes of a source that holds exactly given bytes: how they end, on a byte or at the end of the source, what
they leave alone, and what is left of a stream (R110 to R117, R135, R155, R185). -/

namespace Sys2Proof.Machine

variable {strict stream : Bool} {s t : State} {d init rest : List Byte} {b : Byte} {c : Code} {v : Option Word}
  {m n j : Nat}

/-! ### The first terminal byte -/

/-- All bytes before the first terminal byte are continuation bytes. -/
theorem split_of_firstTerminal (h : firstTerminal d = some j) :
    ∃ init b rest, d = init ++ b :: rest ∧ init.length = j ∧ (∀ x ∈ init, contFlag x = true) ∧ contFlag b = false := by
  induction d generalizing j with
  | nil => cases h
  | cons x d ih =>
    rw [firstTerminal] at h
    split at h
    · next hx =>
      obtain ⟨j', hj', rfl⟩ := Option.map_eq_some_iff.mp h
      obtain ⟨init, b, rest, rfl, rfl, hc, hb⟩ := ih hj'
      exact ⟨x :: init, b, rest, rfl, rfl, List.forall_mem_cons.mpr ⟨hx, hc⟩, hb⟩
    · next hx =>
      cases h
      exact ⟨[], x, d, rfl, rfl, by simp, by simpa using hx⟩

theorem continues_of_firstTerminal (h : firstTerminal d = none) : ∀ x ∈ d, contFlag x = true := by
  induction d with
  | nil => simp
  | cons x d ih =>
    rw [firstTerminal] at h
    split at h
    · next hx => exact List.forall_mem_cons.mpr ⟨hx, ih (Option.map_eq_none_iff.mp h)⟩
    · cases h

/-- The first terminal byte among the first bytes, found in all of them. -/
theorem split_of_firstTerminal_take (h : firstTerminal (d.take m) = some j) :
    ∃ init b rest, d = init ++ b :: rest ∧ init.length = j ∧ j < m ∧ (∀ x ∈ init, contFlag x = true) ∧
      contFlag b = false := by
  obtain ⟨init, b, rest, htake, hj, hc, hb⟩ := split_of_firstTerminal h
  refine ⟨init, b, rest ++ d.drop m, ?_, hj, ?_, hc, hb⟩
  · rw [← List.cons_append, ← List.append_assoc, ← htake, List.take_append_drop]
  · have hlen := congrArg List.length htake
    rw [List.length_take, List.length_append, List.length_cons] at hlen
    omega

/-! ### Exactly these bytes -/

/-- The source of this kind holds exactly the bytes `d`, and its stream is closed (R69). -/
def State.SourceIs (s : State) (stream : Bool) (d : List Byte) : Prop :=
  if stream then s.StreamIs d else s.BufferIs d

/-- Then it begins with them, and nothing follows. -/
theorem State.SourceIs.supplies (h : s.SourceIs stream d) : s.Supplies stream d [] := by
  cases stream with
  | false =>
    obtain ⟨hlen, hread⟩ : s.BufferIs d := h
    exact ⟨hlen.ge, hread⟩
  | true =>
    obtain ⟨hstrm, -⟩ : s.StreamIs d := h
    exact hstrm.trans (List.append_nil _).symm

/-- How a decode of a source of exactly the bytes `d`, issued in `s`, stands in `t`: completed with this code and count, and with
this value where there is one; the operands as they were, a stream without the bytes counted, and a buffer's decode has not touched
the stream (R26, R114, R185). -/
structure State.DecodedTo (s : State) (stream : Bool) (d : List Byte) (c : Code) (v : Option Word) (n : Nat) (t : State) :
    Prop where
  host : t.host = []
  operands : s.SameOperands t
  completed : t.Completed c n
  value : ∀ x, v = some x → t.value = x
  left : if stream then t.StreamIs (d.drop t.count.toNat) else t.strm = s.strm

/-! ### The stream in a run of a buffer decode -/

theorem afterTurn_of_buffer (hs : s.stream = false) : (afterTurn s).strm = s.strm ∧ (afterTurn s).stream = false := by
  cases hb : s.busy with
  | false =>
    rw [afterTurn_of_not_busy hb]
    exact ⟨rfl, hs⟩
  | true =>
    have heffect := afterTurn_effect hb
    obtain ⟨-, -, hstream⟩ := heffect.latches
    exact ⟨by simpa [hs] using heffect.strm, hstream.trans hs⟩

/-- A run of a buffer decode, left alone by the host, takes nothing from the stream (R45). -/
theorem run_of_buffer_leaves_strm {k : Nat} (hhost : s.host = []) (hs : s.stream = false) (h : core.run k s = .next t) :
    t.strm = s.strm := by
  induction k generalizing s with
  | zero =>
    cases h
    rfl
  | succ k ih =>
    rw [run_succ k (step_of_no_host hhost)] at h
    obtain ⟨hstrm, hs'⟩ := afterTurn_of_buffer hs
    exact (ih ((afterTurn_leaves_operands s).2.trans hhost) hs' h).trans hstrm

/-- Nor does the run that begins with its `CMD` write. -/
theorem run_issued_of_buffer_leaves_strm {k : Nat} (hissue : s.Issues (decodeCommand strict false))
    (h : core.run k s = .next t) : t.strm = s.strm := by
  cases k with
  | zero =>
    cases h
    rfl
  | succ k =>
    rw [run_succ k (step_of_issues hissue)] at h
    exact run_of_buffer_leaves_strm (s := { s with host := [] }.start _) rfl (start_decodeCommand _ strict false).2.2 h

/-! ### Decodes that end on a byte -/

/-- What is left where a run has completed with as many bytes counted as it has taken. -/
theorem State.DecodedTo.of_run {k : Nat} (hissue : s.Issues (decodeCommand strict stream))
    (hsource : s.SourceIs stream d) (hrun : core.run k s = .next t) (hhost : t.host = []) (hend : t.Completed c n)
    (hvalue : ∀ w, v = some w → t.value = w) (hleft : stream = true → t.strm = (d.drop n).map SrcEvent.byte) :
    s.DecodedTo stream d c v n t := by
  have hsame := run_issued_leaves_operands hissue hrun
  refine ⟨hhost, hsame, hend, hvalue, ?_⟩
  cases stream with
  | false => exact run_issued_of_buffer_leaves_strm hissue hrun
  | true =>
    obtain ⟨-, -, -, hcount⟩ := hend
    obtain ⟨-, -, -, -, -, hafter, -⟩ := hsame
    obtain ⟨-, hclosed⟩ : s.StreamIs d := hsource
    rw [← hcount] at hleft
    exact ⟨hleft rfl, hafter.trans hclosed⟩

/-- A decode of continuation bytes below the cap and a byte on which the policy ends, with that byte counted. -/
theorem run_ends_on_byte (hissue : s.Issues (decodeCommand strict stream)) (hsource : s.SourceIs stream (init ++ b :: rest))
    (hc : ∀ x ∈ init, contFlag x = true) (hcap : init.length ≤ idxCap (decodeCommand strict stream))
    (hdone : decStep strict stream (Loop.after init) (.byte b) = .done c v ((Loop.after init).idx + 1#4)) :
    ∃ t, core.run (init.length + 2) s = .next t ∧ s.DecodedTo stream (init ++ b :: rest) c v (init.length + 1) t := by
  have hten := idxCap_le_ten (decodeCommand strict stream)
  obtain ⟨t, hrun, hhost, hend, hvalue, hstrm⟩ := run_decode hissue hsource.supplies hc hcap hdone
  rw [toNat_succ_after_idx (by omega)] at hend
  refine ⟨t, hrun, .of_run hissue hsource hrun hhost hend hvalue fun hs => ?_⟩
  simpa using hstrm hs

/-- A decode whose policy overflows on the byte at its cap, all bytes before it being continuation bytes (R173). -/
theorem run_ends_at_cap {k : Nat} (hissue : s.Issues (decodeCommand strict stream)) (hsource : s.SourceIs stream d)
    (hk : k = idxCap (decodeCommand strict stream)) (hlen : k < d.length) (hc : ∀ x ∈ d.take k, contFlag x = true)
    (hover : ∀ l : Loop, l.idx.toNat = k → decStep strict stream l (.byte d[k]) = .done .overflow none (l.idx + 1#4)) :
    ∃ t, core.run (k + 2) s = .next t ∧ s.DecodedTo stream d .overflow none (k + 1) t := by
  have hten := idxCap_le_ten (decodeCommand strict stream)
  have htake : (d.take k).length = k := List.length_take_of_le hlen.le
  have hsplit : d = d.take k ++ d[k] :: d.drop (k + 1) := by rw [List.getElem_cons_drop, List.take_append_drop]
  have hidx : (Loop.after (d.take k)).idx.toNat = k := by rw [Loop.after_idx_toNat (by omega), htake]
  rw [hsplit] at hsource
  have hends := run_ends_on_byte hissue hsource hc (by omega) (hover _ hidx)
  rwa [← hsplit, htake] at hends

/-! ### Decodes that end at the end of the source -/

/-- The kind with which a decode ends at the end of a source of `n` bytes (R117). -/
def endKind (stream : Bool) (n : Nat) : Code :=
  if !stream then .truncated else if n = 0 then .endOfInput else .unexpectedEnd

theorem endOfSource_after (stream : Bool) (hd : d.length ≤ 10) :
    endOfSource stream (Loop.after d) = .done (endKind stream d.length) none (Loop.after d).idx := by
  have hidx := Loop.after_idx_toNat hd
  have hzero : (Loop.after d).idx = 0#4 ↔ d.length = 0 := by
    rw [← hidx]
    exact ⟨fun h => by rw [h]; rfl, fun h => BitVec.eq_of_toNat_eq h⟩
  unfold endOfSource endKind
  cases stream with
  | false => rfl
  | true =>
    by_cases h0 : d.length = 0
    · have hnil := hzero.mpr h0
      simp [raise, h0, hnil]
    · simp [raise, h0, hzero]

/-- Where a decode has read all of its source, the next answer is the end. -/
theorem State.HasRead.nextInput_eof (h : t.HasRead d [] []) (hd : d.length ≤ 10) (hs : t.stream = stream)
    (hsame : s.SameOperands t) (hsource : s.SourceIs stream d) : t.nextInput = some .eof := by
  obtain ⟨-, -, hbufLen, -, -, hafter, -⟩ := hsame
  cases stream with
  | false =>
    obtain ⟨hlen, -⟩ : s.BufferIs d := hsource
    have hidx : t.idx.toNat = d.length := by rw [← Loop.after_idx_toNat hd, ← h.loop]
    rw [nextInput_buffer hs, bufferNext, hidx, hbufLen, hlen, if_neg (Nat.lt_irrefl _)]
  | true =>
    obtain ⟨-, hclosed⟩ : s.StreamIs d := hsource
    simp [State.nextInput, hs, h.stream hs, hafter, hclosed]

/-- A decode of continuation bytes alone, no more of them than the cap, ends at the end of the source with all of them counted
(R117). -/
theorem run_ends_at_end_of_source (hissue : s.Issues (decodeCommand strict stream)) (hsource : s.SourceIs stream d)
    (hc : ∀ x ∈ d, contFlag x = true) (hcap : d.length ≤ idxCap (decodeCommand strict stream)) :
    ∃ t, core.run (d.length + 2) s = .next t ∧ s.DecodedTo stream d (endKind stream d.length) none d.length t := by
  have hten := idxCap_le_ten (decodeCommand strict stream)
  have hd : d.length ≤ 10 := by omega
  obtain ⟨-, hstrict₀, hstream₀⟩ := start_decodeCommand { s with host := [] } strict stream
  have hstart : ({ s with host := [] }.start (encode (decodeCommand strict stream))).HasRead [] (d ++ []) [] :=
    .start rfl (by rw [List.append_nil]; exact hsource.supplies)
  obtain ⟨u, hu, hstrict, hstream, hrun⟩ := hstart.run_continuation hc (by
    rw [hstrict₀, hstream₀]
    simpa using hcap)
  rw [hstrict₀] at hstrict
  rw [hstream₀] at hstream
  rw [List.nil_append] at hu
  have hreach : core.run (d.length + 1) s = .next u := by rw [run_succ _ (step_of_issues hissue)]; exact hrun 0
  have hin := hu.nextInput_eof hd hstream (run_issued_leaves_operands hissue hreach) hsource
  have hlast := State.Decoding.step_answered ⟨hu.host, hu.busy, hu.opk⟩ hin
  rw [decStep_eof, hstream, hu.loop, endOfSource_after stream hd, apply_done] at hlast
  have hwhole : core.run (d.length + 2) s = .next (u.fetched.finish (endKind stream d.length) none (Loop.after d).idx) := by
    rw [run_succ _ (step_of_issues hissue), hrun 1, run_succ 0 hlast]
    rfl
  refine ⟨_, hwhole,
    .of_run hissue hsource hwhole ?_ ⟨finish_busy .., finish_done .., finish_code .., ?_⟩ nofun fun hs => ?_⟩
  · rw [finish_host]
    exact hu.host
  · rw [finish_count, Loop.after_idx_toNat hd]
  · have hs' : u.stream = true := hstream.trans hs
    rw [finish_strm, fetched_strm_of_stream hs', hu.stream hs']
    simp

end Sys2Proof.Machine
end

section
/-! SUPPORT. Whole permissive decodes, row by row of the table of R135. -/

namespace Sys2Proof.Machine

variable {stream : Bool} {s : State} {l : Loop} {d init rest : List Byte} {b : Byte} {j : Nat}

/-! ### The permissive policies where they overflow -/

/-- DECP.B ends at the byte of index 10, whatever it is (R130, decision D7). -/
theorem policyDecpB_eleventh (hi : 10 ≤ l.idx.toNat) (b : Byte) :
    policyDecpB l (.byte b) = .done .overflow none (l.idx + 1#4) := by
  simp [policyDecpB, raise, hi]

/-- DECP.S ends at a continuation byte of index 9 (R131, decision D8). -/
theorem policyDecpS_tenth (hi : 9 ≤ l.idx.toNat) (hc : contFlag b = true) :
    policyDecpS l (.byte b) = .done .overflow none (l.idx + 1#4) := by
  simp [policyDecpS, raise, hi, hc]

/-- The permissive mode refuses a terminal byte of index 9 above 1: its group has a bit beyond the 64th (R130, R131). -/
theorem decStep_permissive_wide (stream : Bool) (hc : contFlag b = false) (hi : l.idx.toNat = 9) (hwide : 1 < b.toNat) :
    decStep false stream l (.byte b) = .done .overflow none (l.idx + 1#4) := by
  cases stream with
  | false =>
    have hidx : l.idx = 9#4 := BitVec.eq_of_toNat_eq hi
    simp [decStep, policyDecpB, raise, hidx, hc, hwide]
  | true => simp [decStep, policyDecpS, raise, hi, hc, hwide]

/-! ### The rows of a first terminal byte among the first ten -/

/-- A terminal byte of an index below 9, or of index 9 and at most 1, ends the decode OK with the value of the bytes read (R133). -/
theorem run_permissive_ok (hissue : s.Issues (decodeCommand false stream)) (hsource : s.SourceIs stream (init ++ b :: rest))
    (hc : ∀ x ∈ init, contFlag x = true) (hb : contFlag b = false) (hnine : init.length ≤ 9)
    (htakes : init.length < 9 ∨ b.toNat ≤ 1) :
    ∃ t v, core.run (init.length + 2) s = .next t ∧
      s.DecodedTo stream (init ++ b :: rest) .ok (some v) (init.length + 1) t ∧
      v.toNat = logicalValue (init ++ [b]) := by
  have hcap : 9 ≤ idxCap (decodeCommand false stream) := by cases stream <;> decide
  have hidx : (Loop.after init).idx.toNat = init.length := Loop.after_idx_toNat (by omega)
  have hlast : (Loop.after init).Takes b := ⟨by omega, fun h9 => by omega⟩
  obtain ⟨t, hrun, hend⟩ := run_ends_on_byte hissue hsource hc (by omega) <|
    decStep_permissive_terminal stream hb hlast.1 hlast.2
  exact ⟨t, _, hrun, hend, toNat_termValue_of_takes (by omega) hb hlast⟩

/-- A terminal byte of index 9 above 1 ends it with OVERFLOW. -/
theorem run_permissive_wide (hissue : s.Issues (decodeCommand false stream))
    (hsource : s.SourceIs stream (init ++ b :: rest)) (hc : ∀ x ∈ init, contFlag x = true) (hb : contFlag b = false)
    (hnine : init.length = 9) (hwide : 1 < b.toNat) :
    ∃ t, core.run (init.length + 2) s = .next t ∧
      s.DecodedTo stream (init ++ b :: rest) .overflow none (init.length + 1) t := by
  have hcap : 9 ≤ idxCap (decodeCommand false stream) := by cases stream <;> decide
  have hidx : (Loop.after init).idx.toNat = 9 := by rw [Loop.after_idx_toNat (by omega), hnine]
  exact run_ends_on_byte hissue hsource hc (by omega) (decStep_permissive_wide stream hb hidx hwide)

/-- The rows of R135 with a terminal byte among the first ten, for both kinds of source. -/
theorem run_permissive_terminal (hissue : s.Issues (decodeCommand false stream)) (hsource : s.SourceIs stream d)
    (h : firstTerminal (d.take 10) = some j) :
    ∃ t c v n, j < 10 ∧ core.run (j + 2) s = .next t ∧ s.DecodedTo stream d c v n t ∧
      if j < 9 ∨ (d.getD j 0#8).toNat ≤ 1 then t.Completed .ok (j + 1) ∧ t.value.toNat = logicalValue (d.take (j + 1))
      else t.Completed .overflow 10 := by
  obtain ⟨init, b, rest, rfl, rfl, hten, hc, hb⟩ := split_of_firstTerminal_take h
  have hget : (init ++ b :: rest).getD init.length 0#8 = b := by simp
  have htake : (init ++ b :: rest).take (init.length + 1) = init ++ [b] := by simp [List.take_append]
  rw [hget, htake]
  by_cases htakes : init.length < 9 ∨ b.toNat ≤ 1
  · obtain ⟨t, v, hrun, hend, hvalue⟩ := run_permissive_ok hissue hsource hc hb (by omega) htakes
    refine ⟨t, _, _, _, hten, hrun, hend, ?_⟩
    rw [if_pos htakes]
    exact ⟨hend.completed, by rw [hend.value v rfl, hvalue]⟩
  · have hnine : init.length = 9 := by omega
    obtain ⟨t, hrun, hend⟩ := run_permissive_wide hissue hsource hc hb hnine (by omega)
    refine ⟨t, _, _, _, hten, hrun, hend, ?_⟩
    rw [if_neg htakes]
    simpa [hnine] using hend.completed

/-! ### The rows of ten continuation bytes, or of no terminal byte -/

/-- DECP.B on more than ten bytes, the first ten being continuation bytes (decision D7). -/
theorem run_decpB_eleven (hissue : s.Issues .decpB) (hsource : s.BufferIs d) (hlen : 11 ≤ d.length)
    (hc : ∀ x ∈ d.take 10, contFlag x = true) :
    ∃ t, core.run 12 s = .next t ∧ s.DecodedTo false d .overflow none 11 t :=
  run_ends_at_cap (strict := false) (stream := false) hissue hsource rfl hlen hc fun _ hl => policyDecpB_eleventh hl.ge _

/-- DECP.S on ten bytes and more, the first ten being continuation bytes (decision D8). -/
theorem run_decpS_ten (hissue : s.Issues .decpS) (hsource : s.StreamIs d) (hlen : 10 ≤ d.length)
    (hc : ∀ x ∈ d.take 10, contFlag x = true) :
    ∃ t, core.run 11 s = .next t ∧ s.DecodedTo true d .overflow none 10 t := by
  have htenth : d[9] ∈ d.take 10 := List.mem_take_iff_getElem.mpr ⟨9, by omega, rfl⟩
  exact run_ends_at_cap (strict := false) (stream := true) hissue hsource rfl hlen
    (fun x hx => hc x (List.mem_of_mem_take (i := 9) (by rwa [List.take_take])))
    fun _ hl => policyDecpS_tenth hl.ge (hc _ htenth)

end Sys2Proof.Machine
end

section
open Sys2Proof Sys2Proof.Machine

/-- Settles O49: a terminal byte among the first ten, the eleventh byte, or the end of the buffer. -/
theorem permissiveBufferTable : Obligations.PermissiveBufferTable := by
  unfold Obligations.PermissiveBufferTable
  intro s d hissue hsource
  cases hfirst : firstTerminal (d.take 10) with
  | some j =>
    obtain ⟨t, c, v, n, hj, hrun, hend, hrow⟩ := run_permissive_terminal (stream := false) hissue hsource hfirst
    exact ⟨j + 2, t, by omega, hrun, hend.host, hend.operands, hend.left, hrow⟩
  | none =>
    have hc := continues_of_firstTerminal hfirst
    by_cases hlen : 11 ≤ d.length
    · obtain ⟨t, hrun, hend⟩ := run_decpB_eleven hissue hsource hlen hc
      refine ⟨12, t, le_rfl, hrun, hend.host, hend.operands, hend.left, ?_⟩
      simpa only [if_pos hlen] using hend.completed
    · rw [List.take_of_length_le (by omega)] at hc
      obtain ⟨t, hrun, hend⟩ := run_ends_at_end_of_source (strict := false) (stream := false) hissue hsource hc
        (show d.length ≤ 10 by omega)
      have hkind : t.Completed .truncated d.length := hend.completed
      refine ⟨d.length + 2, t, by omega, hrun, hend.host, hend.operands, hend.left, ?_⟩
      simpa only [if_neg hlen] using hkind

/-- Settles O50: a terminal byte among the first ten, the tenth byte, or the end of the stream. -/
theorem permissiveStreamTable : Obligations.PermissiveStreamTable := by
  unfold Obligations.PermissiveStreamTable
  intro s d hissue hsource
  cases hfirst : firstTerminal (d.take 10) with
  | some j =>
    obtain ⟨t, c, v, n, hj, hrun, hend, hrow⟩ := run_permissive_terminal (stream := true) hissue hsource hfirst
    exact ⟨j + 2, t, by omega, hrun, hend.host, hend.operands, hend.left, hrow⟩
  | none =>
    have hc := continues_of_firstTerminal hfirst
    by_cases hlen : 10 ≤ d.length
    · obtain ⟨t, hrun, hend⟩ := run_decpS_ten hissue hsource hlen hc
      refine ⟨11, t, le_rfl, hrun, hend.host, hend.operands, hend.left, ?_⟩
      simpa only [if_pos hlen] using hend.completed
    · rw [List.take_of_length_le (by omega)] at hc
      obtain ⟨t, hrun, hend⟩ := run_ends_at_end_of_source (strict := false) (stream := true) hissue hsource hc
        (show d.length ≤ 9 by omega)
      refine ⟨d.length + 2, t, by omega, hrun, hend.host, hend.operands, hend.left, ?_⟩
      have hkind := hend.completed
      by_cases h0 : d.length = 0
      · simpa [h0, endKind] using hkind
      · simpa [hlen, h0, endKind] using hkind
end

section
/-! SUPPORT. The strict policy: its step on a byte in the registers' terms (R150, R151), the permissive policies
beside it (R154), and what an OK of it guarantees, on one answer and over a whole run on a stream (R153). -/

namespace Sys2Proof.Machine

variable {stream : Bool} {l : Loop} {b : Byte} {d : List Byte} {inp : Input} {v : Option Word} {n : BitVec 4}

/-! ### The step on a byte -/

/-- The branches of the strict policy on a byte, with its tests of `IDX` and `SHIFT` put on the registers (R150). -/
theorem apply_strictByte (t : State) (l : Loop) (b : Byte) :
    t.apply (strictByte l b) =
      if (l.idx = 8#4 ∧ b.getLsbD 7 = true) ∨ 9 ≤ l.idx.toNat then t.finish .overflow none (l.idx + 1#4)
      else if b.getLsbD 7 = false then
        if b = 0x00#8 ∧ l.shift ≠ 0#7 then t.finish .nonMinimal none (l.idx + 1#4)
        else t.finish .ok (some (termValue l b)) (l.idx + 1#4)
      else t.apply (.goOn (l.push b)) := by
  have hidx : l.idx.toNat = 8 ↔ l.idx = 8#4 := BitVec.toNat_inj (y := 8#4)
  have hshift : 0 < l.shift.toNat ↔ l.shift ≠ 0#7 := Nat.pos_iff_ne_zero.trans (BitVec.toNat_inj (y := 0#7)).not
  simp only [strictByte, hidx, hshift, apply_ite t.apply, Bool.not_eq_true']
  rfl

/-! ### Where it goes on, and where it ends OK -/

/-- The strict policy goes on below index 8 alone (R150, R152). -/
theorem decStep_strict_goOn {l' : Loop} (h : decStep true stream l inp = .goOn l') :
    ∃ b, inp = .byte b ∧ contFlag b = true ∧ l.idx.toNat < 8 ∧ l' = l.push b := by
  obtain ⟨b, rfl, hc, rfl⟩ := decStep_goOn h
  have hout := strictByte_outcome l b
  rw [← decStep_strict_byte stream, h] at hout
  cases hout with
  | goOn _ _ hi => exact ⟨b, rfl, hc, hi, rfl⟩

/-- It ends OK on a terminal byte of an index up to 8 that is the first or not zero (R150, R153). -/
theorem decStep_strict_ok (h : decStep true stream l inp = .done .ok v n) :
    ∃ b, inp = .byte b ∧ contFlag b = false ∧ l.idx.toNat ≤ 8 ∧ (b = 0#8 → l.shift.toNat = 0) ∧
      v = some (termValue l b) ∧ n = l.idx + 1#4 := by
  obtain ⟨b, rfl, hc, rfl, rfl, -⟩ := decStep_ok h
  rw [decStep_strict_byte, strictByte] at h
  split at h
  · cases h
  · next hcap =>
    rw [if_pos (by simp [hc])] at h
    split at h
    · cases h
    · next hmin => exact ⟨b, rfl, hc, by omega, fun h0 => Nat.eq_zero_of_not_pos fun hs => hmin ⟨h0, hs⟩, rfl, rfl⟩

/-- On every answer on which the strict policy goes on or ends OK the permissive policy of the source kind does the same, so it
ends OK wherever the strict one does (R154 a). -/
theorem decodeRun_permissive_of_strict_ok {answers : List Input} (h : decodeRun true stream l answers = some (.ok, v, n)) :
    decodeRun false stream l answers = some (.ok, v, n) := by
  induction answers generalizing l with
  | nil => cases h
  | cons inp rest ih =>
    rw [decodeRun] at h ⊢
    cases hout : decStep true stream l inp with
    | done c v' n' =>
      rw [hout] at h
      cases h
      obtain ⟨b, rfl, hc, hi, -, rfl, rfl⟩ := decStep_strict_ok hout
      rw [decStep_permissive_terminal stream hc (by omega) (by omega)]
    | goOn l' =>
      rw [hout] at h
      obtain ⟨b, rfl, hc, hi, rfl⟩ := decStep_strict_goOn hout
      have hcap : 9 ≤ idxCap (decodeCommand false stream) := by cases stream <;> decide
      rw [decStep_continuation hc (by omega)]
      exact ih h

/-! ### What an OK guarantees -/

/-- An encoded value is canonical by its terminal byte: the first, or not zero (R63). -/
theorem isCanonical_concat (d : List Byte) (b : Byte) :
    isCanonical (d ++ [b]) = (isEncoded (d ++ [b]) && (d.length == 0 || !(b == 0#8))) := by
  simp [isCanonical]

/-- A strict decode that ends OK on an answer after the bytes `d`: the bytes read are the canonical encoding of the value, and there
are at most nine of them (R153). -/
theorem decStep_strict_ok_after (hcont : ∀ x ∈ d, contFlag x = true)
    (hcap : d.length ≤ idxCap (decodeCommand true stream)) (h : decStep true stream (Loop.after d) inp = .done .ok v n) :
    ∃ b x, inp = .byte b ∧ v = some x ∧ n.toNat = size x ∧ d ++ [b] = enc x ∧ x.toNat < 2 ^ 63 := by
  obtain ⟨b, x, rfl, rfl, hn, hencoded, hvalue⟩ := decStep_ok_after hcont hcap h
  obtain ⟨_, hb, -, hidx, hmin, -⟩ := decStep_strict_ok h
  cases hb
  have hten := idxCap_le_ten (decodeCommand true stream)
  rw [Loop.after_idx_toNat (by omega)] at hidx
  rw [Loop.after_shift_toNat (by omega)] at hmin
  have hcanon : isCanonical (d ++ [b]) = true := by
    rw [isCanonical_concat, hencoded]
    by_cases h0 : b = 0#8
    · have hlen : d.length = 0 := by have := hmin h0; omega
      simp [hlen]
    · simp [h0]
  have henc := eq_enc_of_isCanonical hcanon hvalue.symm
  have hsize : d.length + 1 = size x := by simpa using congrArg List.length henc
  exact ⟨b, x, rfl, rfl, hn.trans hsize, henc, (size_le_iff (n := 9) (by decide)).mp (by omega)⟩

/-- A stream decode that has ended has ended on one answer, taken after the bytes it had taken before (R114, R115, R206). -/
theorem State.HasTaken.run_ends {q : List SrcEvent} {s t : State} {k : Nat} (h : s.HasTaken q d)
    (hrun : core.run k s = .next t) (hend : t.busy = false) :
    ∃ (u : State) (e : List Byte) (inp : Input) (c : Code) (v : Option Word) (n : BitVec 4),
      u.HasTaken q e ∧ u.strict = s.strict ∧ u.nextInput = some inp ∧
      decStep u.strict u.stream (Loop.after e) inp = .done c v n ∧ t = u.fetched.finish c v n := by
  induction k generalizing s d with
  | zero =>
    cases hrun
    exact absurd (h.decoding.busy.symm.trans hend) (by decide)
  | succ k ih =>
    cases hin : s.nextInput with
    | none =>
      rw [run_succ k (h.decoding.step_unanswered hin)] at hrun
      have hends := ih (h.unanswered hin) hrun
      exact hends
    | some inp =>
      rw [run_succ k (h.decoding.step_answered hin)] at hrun
      have hout := decStep_outcome h.decoding.opk s.loop inp
      cases hpolicy : decStep s.strict s.stream s.loop inp with
      | goOn l =>
        rw [hpolicy] at hrun hout
        cases hout with
        | goOn b hc hi =>
          have hends := ih (h.push hin hc hi) hrun
          exact hends
      | done c v n =>
        rw [hpolicy, apply_done, run_of_not_busy (by rw [finish_host]; exact h.decoding.host) (finish_busy ..)] at hrun
        cases hrun
        rw [h.loop] at hpolicy
        exact ⟨s, d, inp, c, v, n, h, rfl, hin, hpolicy, rfl⟩

/-- However long the source takes for each answer, a strict stream decode that completes OK has taken the canonical encoding of the
value it delivers (R153). -/
theorem State.HasTaken.run_strict_ok {q : List SrcEvent} {s t : State} {k m : Nat} (h : s.HasTaken q d)
    (hstrict : s.strict = true) (hrun : core.run k s = .next t) (hend : t.Completed .ok m) :
    t.value.toNat < 2 ^ 63 ∧ m = size t.value ∧
      ∃ p, q = p ++ t.strm ∧ answersOf p = (enc t.value).map Input.byte := by
  obtain ⟨hnot, -, hcode, hcount⟩ := hend
  obtain ⟨u, e, inp, c, v, n, hu, hlatch, hin, hout, rfl⟩ := h.run_ends hrun hnot
  rw [finish_code] at hcode
  obtain rfl := codeBits_injective hcode
  have hcap := hu.cap
  rw [hlatch, hstrict] at hout hcap
  obtain ⟨b, x, rfl, rfl, hn, henc, hx⟩ := decStep_strict_ok_after hu.cont hcap hout
  obtain ⟨p, hq, hp⟩ := hu.taken_byte hin
  rw [henc] at hp
  rw [finish_count] at hcount
  exact ⟨hx, hcount.symm.trans hn, p, by rw [finish_strm, hq], hp⟩

end Sys2Proof.Machine
end

section
open Sys2Proof Sys2Proof.Machine

/-- Settles O21: the end of the buffer, and the branches of R150 on a byte. -/
theorem decsBStep : Obligations.DecsBStep := by
  unfold Obligations.DecsBStep
  intro s hb hrun
  have hs : s.stream = false := (running_buffer.mp (.inr hrun)).2
  have hstep : exec .decsB s = .next (s.fetched.apply (policyDecsB s.loop (bufferNext s))) :=
    exec_decodeCommand (strict := true) (stream := false) hb hrun (nextInput_buffer hs)
  rw [hstep, fetched_of_buffer hs]
  by_cases hlen : s.bufLen ≤ s.idx.toNat
  · rw [bufferNext, if_neg (Nat.not_lt.mpr hlen), if_pos hlen]
    rfl
  · rw [bufferNext, if_pos (Nat.not_le.mp hlen), if_neg hlen, policyDecsB, apply_strictByte]
    rfl

/-- Settles O22: the end of the stream, and the branches of R151 on a byte. -/
theorem decsSStep : Obligations.DecsSStep := by
  unfold Obligations.DecsSStep
  intro s inp hb hrun hin
  have hs : s.stream = true := (running_stream.mp (.inr hrun)).2
  have hstep : exec .decsS s = .next (s.fetched.apply (policyDecsS s.loop inp)) :=
    exec_decodeCommand (strict := true) (stream := true) hb hrun hin
  rw [hstep, fetched_of_stream hs]
  cases inp with
  | eof =>
    simp only [policyDecsS, endOfSource, apply_ite s.streamTaken.apply, Bool.not_true, Bool.false_eq_true, if_false]
    rfl
  | byte b =>
    rw [policyDecsS, apply_strictByte]
    rfl

/-- Settles O55: from the loop registers of the start. -/
theorem strictOkImpliesPermissiveOk : Obligations.StrictOkImpliesPermissiveOk :=
  fun _ _ _ _ h => decodeRun_permissive_of_strict_ok h

/-- Settles O54: on a buffer the last step, on a stream the whole run, each from what the decode has read before its last byte. -/
theorem strictOkIsCanonical : Obligations.StrictOkIsCanonical := by
  unfold Obligations.StrictOkIsCanonical
  refine ⟨fun s t hinv hread hb h hend hcode => ?_, fun s t k n hissue hrun hhost hend => ?_⟩
  · obtain ⟨hrunning, -⟩ := exec_of_busy hb h
    obtain ⟨ho, hstrict, hs⟩ := latches_of_running (strict := true) (stream := false) hrunning
    obtain ⟨inp, c, v, m, hin, hdone, rfl⟩ := exec_decode_ends hb ho h hend
    rw [finish_code] at hcode
    obtain rfl := codeBits_injective hcode
    obtain ⟨-, hcont, -⟩ := hread hb ho hs
    have hlen := bufBytes_length s s.idx.toNat
    have hcap := hinv.idx_le_cap
    rw [running_eq_decodeCommand ho, hstrict, hs] at hcap
    rw [loop_eq_after hinv hread hb ho hs, hstrict, hs] at hdone
    obtain ⟨b, x, rfl, rfl, hm, henc, hx⟩ :=
      decStep_strict_ok_after (by simpa [State.bufBytes] using hcont) (hlen.trans_le hcap) hdone
    obtain ⟨-, rfl⟩ := buffer_byte hs hin
    rw [← bufBytes_succ] at henc
    have hsize : s.idx.toNat + 1 = size x := by
      rw [← bufBytes_length s (s.idx.toNat + 1), henc, enc_length]
    refine ⟨hx, by rw [finish_count, hm]; rfl, ?_⟩
    rw [finish_count, hm, ← hsize]
    exact henc
  · cases k with
    | zero =>
      cases hrun
      exact absurd (hissue.2.symm.trans hhost) (by simp)
    | succ k =>
      rw [run_succ k (step_of_issues hissue)] at hrun
      exact (State.HasTaken.start (s := { s with host := [] }) rfl true).run_strict_ok
        (start_decodeCommand _ true true).2.1 hrun hend
end

section
/-! SUPPORT. Whole strict decodes, row by row of the table of R155, for both kinds of source. -/

namespace Sys2Proof.Machine

variable {stream : Bool} {s : State} {d init rest : List Byte} {b : Byte} {j : Nat}

theorem idxCap_strict (stream : Bool) : idxCap (decodeCommand true stream) = 8 := by cases stream <;> rfl

/-- A terminal byte among the first nine that is the first or not zero ends the decode OK with the value of the bytes read
(R153). -/
theorem run_strict_ok (hissue : s.Issues (decodeCommand true stream)) (hsource : s.SourceIs stream (init ++ b :: rest))
    (hc : ∀ x ∈ init, contFlag x = true) (hb : contFlag b = false) (height : init.length ≤ 8)
    (hmin : init.length = 0 ∨ b ≠ 0#8) :
    ∃ t v, core.run (init.length + 2) s = .next t ∧
      s.DecodedTo stream (init ++ b :: rest) .ok (some v) (init.length + 1) t ∧
      v.toNat = logicalValue (init ++ [b]) := by
  have hidx : (Loop.after init).idx.toNat = init.length := Loop.after_idx_toNat (by omega)
  have hshift : (Loop.after init).shift.toNat = 7 * init.length := Loop.after_shift_toNat (by omega)
  have hfirst (h0 : b = 0#8) : init.length = 0 := hmin.resolve_right (not_not.mpr h0)
  obtain ⟨t, hrun, hend⟩ := run_ends_on_byte hissue hsource hc (by rwa [idxCap_strict]) <|
    decStep_strict_terminal stream hb (by omega) fun h0 => by rw [hshift, hfirst h0]
  exact ⟨t, _, hrun, hend, toNat_termValue_of_takes (by omega) hb ⟨by omega, by omega⟩⟩

/-- A zero byte among the first nine that is not the first ends it with NON_MINIMAL (R174). -/
theorem run_strict_nonMinimal (hissue : s.Issues (decodeCommand true stream))
    (hsource : s.SourceIs stream (init ++ 0#8 :: rest)) (hc : ∀ x ∈ init, contFlag x = true)
    (height : init.length ≤ 8) (hpos : init.length ≠ 0) :
    ∃ t, core.run (init.length + 2) s = .next t ∧
      s.DecodedTo stream (init ++ 0#8 :: rest) .nonMinimal none (init.length + 1) t := by
  have hidx : (Loop.after init).idx.toNat = init.length := Loop.after_idx_toNat (by omega)
  have hshift : (Loop.after init).shift.toNat = 7 * init.length := Loop.after_shift_toNat (by omega)
  exact run_ends_on_byte hissue hsource hc (by rwa [idxCap_strict]) <|
    (decStep_strict_byte stream _ _).trans (strictByte_zero (by omega) (by omega))

/-- The rows of R155 with a terminal byte among the first nine. -/
theorem run_strict_terminal (hissue : s.Issues (decodeCommand true stream)) (hsource : s.SourceIs stream d)
    (h : firstTerminal (d.take 9) = some j) :
    ∃ t c v n, j < 9 ∧ core.run (j + 2) s = .next t ∧ s.DecodedTo stream d c v n t ∧
      if j = 0 ∨ d.getD j 0#8 ≠ 0#8 then t.Completed .ok (j + 1) ∧ t.value.toNat = logicalValue (d.take (j + 1))
      else t.Completed .nonMinimal (j + 1) := by
  obtain ⟨init, b, rest, rfl, rfl, hnine, hc, hb⟩ := split_of_firstTerminal_take h
  have hget : (init ++ b :: rest).getD init.length 0#8 = b := by simp
  have htake : (init ++ b :: rest).take (init.length + 1) = init ++ [b] := by simp [List.take_append]
  rw [hget, htake]
  by_cases hmin : init.length = 0 ∨ b ≠ 0#8
  · obtain ⟨t, v, hrun, hend, hvalue⟩ := run_strict_ok hissue hsource hc hb (by omega) hmin
    refine ⟨t, _, _, _, hnine, hrun, hend, ?_⟩
    rw [if_pos hmin]
    exact ⟨hend.completed, by rw [hend.value v rfl, hvalue]⟩
  · obtain ⟨hpos, hzero⟩ := not_or.mp hmin
    obtain rfl := not_not.mp hzero
    obtain ⟨t, hrun, hend⟩ := run_strict_nonMinimal hissue hsource hc (by omega) hpos
    refine ⟨t, _, _, _, hnine, hrun, hend, ?_⟩
    rw [if_neg hmin]
    exact hend.completed

/-- The rows of R155 with no terminal byte among the first nine: the ninth byte overflows, or the source ends before it. -/
theorem run_strict_no_terminal (hissue : s.Issues (decodeCommand true stream)) (hsource : s.SourceIs stream d)
    (h : firstTerminal (d.take 9) = none) :
    ∃ k t c v n, k ≤ 10 ∧ core.run k s = .next t ∧ s.DecodedTo stream d c v n t ∧
      if 9 ≤ d.length then t.Completed .overflow 9 else t.Completed (endKind stream d.length) d.length := by
  have hc := continues_of_firstTerminal h
  by_cases hlen : 9 ≤ d.length
  · have hninth : d[8] ∈ d.take 9 := List.mem_take_iff_getElem.mpr ⟨8, by omega, rfl⟩
    obtain ⟨t, hrun, hend⟩ := run_ends_at_cap hissue hsource (idxCap_strict stream).symm hlen
      (fun x hx => hc x (List.mem_of_mem_take (i := 8) (by rwa [List.take_take])))
      fun _ hl => (decStep_strict_byte stream _ _).trans (strictByte_ninth hl (hc _ hninth))
    exact ⟨10, t, _, _, _, le_rfl, hrun, hend, by rw [if_pos hlen]; exact hend.completed⟩
  · rw [List.take_of_length_le (by omega)] at hc
    obtain ⟨t, hrun, hend⟩ := run_ends_at_end_of_source hissue hsource hc (by rw [idxCap_strict]; omega)
    exact ⟨_, t, _, _, _, by omega, hrun, hend, by rw [if_neg hlen]; exact hend.completed⟩

end Sys2Proof.Machine
end

section
open Sys2Proof Sys2Proof.Machine

/-- Settles O47: a terminal byte among the first nine, the ninth byte, or the end of the buffer. -/
theorem strictBufferTable : Obligations.StrictBufferTable := by
  unfold Obligations.StrictBufferTable
  intro s d hissue hsource
  cases hfirst : firstTerminal (d.take 9) with
  | some j =>
    obtain ⟨t, c, v, n, hj, hrun, hend, hrow⟩ := run_strict_terminal (stream := false) hissue hsource hfirst
    exact ⟨j + 2, t, by omega, hrun, hend.host, hend.operands, hend.left, hrow⟩
  | none =>
    obtain ⟨k, t, c, v, n, hk, hrun, hend, hrow⟩ := run_strict_no_terminal (stream := false) hissue hsource hfirst
    exact ⟨k, t, hk, hrun, hend.host, hend.operands, hend.left, hrow⟩

/-- Settles O48: a terminal byte among the first nine, the ninth byte, or the end of the stream. -/
theorem strictStreamTable : Obligations.StrictStreamTable := by
  unfold Obligations.StrictStreamTable
  intro s d hissue hsource
  cases hfirst : firstTerminal (d.take 9) with
  | some j =>
    obtain ⟨t, c, v, n, hj, hrun, hend, hrow⟩ := run_strict_terminal (stream := true) hissue hsource hfirst
    exact ⟨j + 2, t, by omega, hrun, hend.host, hend.operands, hend.left, hrow⟩
  | none =>
    obtain ⟨k, t, c, v, n, hk, hrun, hend, hrow⟩ := run_strict_no_terminal (stream := true) hissue hsource hfirst
    refine ⟨k, t, hk, hrun, hend.host, hend.operands, hend.left, ?_⟩
    by_cases h0 : d.length = 0 <;> simpa [h0, endKind] using hrow
end

section
/-! SUPPORT. The unit at rest (R187), and where TRUNCATED, OVERFLOW and NON_MINIMAL are raised: what a decode's policy must find,
and what a completion with one of those codes tells of it (R172 to R174). -/

namespace Sys2Proof.Machine

variable {strict stream : Bool} {i : Instr} {s t : State} {l : Loop} {b : Byte} {inp : Input} {c : Code} {v : Option Word}
  {n : BitVec 4}

/-! ### The unit at rest -/

/-- In phase IDLE or DONE the unit's turn changes nothing (R187). -/
theorem unitTurn_of_not_busy (hb : s.busy = false) : unitTurn s = .next s := by
  simp [unitTurn, hb]

/-! ### A completion that is not OK, and the policy's outcome behind it -/

/-- Behind a completion that is not OK stands a decode policy that ended so, with the count delivered (R114, R115). -/
theorem exec_ends_with (hc : c ≠ .ok) (hb : s.busy = true) (h : exec i s = .next t) (hend : t.busy = false)
    (hcode : t.code = c.bits) :
    s.opk = true ∧ ∃ inp v, s.nextInput = some inp ∧ decStep s.strict s.stream s.loop inp = .done c v t.count := by
  cases ho : s.opk with
  | false =>
    obtain ⟨-, rfl⟩ := exec_of_busy hb h
    rw [unitStep_size ho, sizeStep, finish_code] at hcode
    exact absurd (codeBits_injective hcode).symm hc
  | true =>
    obtain ⟨inp, c', v, n, hin, hout, rfl⟩ := exec_decode_ends hb ho h hend
    rw [finish_code] at hcode
    obtain rfl := codeBits_injective hcode
    exact ⟨rfl, inp, v, hin, by rw [finish_count, hout]⟩

/-- A policy's end on the source's answer is delivered with its code (R114, R115). -/
theorem exec_ends_of (hb : s.busy = true) (ho : s.opk = true) (h : exec i s = .next t) (hin : s.nextInput = some inp)
    (hout : decStep s.strict s.stream s.loop inp = .done c v n) : t.busy = false ∧ t.code = c.bits := by
  obtain ⟨rfl, -⟩ := exec_of_busy hb h
  rw [exec_running_decode hb ho hin, hout] at h
  cases h
  exact ⟨finish_busy .., finish_code ..⟩

/-- The end of a source is told by its own three kinds alone, and that of a buffer by TRUNCATED (R117). -/
theorem decStep_eof_kind (h : decStep strict stream l .eof = .done c v n) :
    (c = .truncated ∧ stream = false ∧ n = l.idx) ∨ c = .endOfInput ∨ c = .unexpectedEnd := by
  rw [decStep_eof, endOfSource] at h
  cases stream with
  | false =>
    cases h
    exact .inl ⟨rfl, rfl, rfl⟩
  | true =>
    rw [if_neg (by decide)] at h
    split at h
    · cases h
      exact .inr (.inl rfl)
    · cases h
      exact .inr (.inr rfl)

/-! ### TRUNCATED -/

/-- A buffer answers End from `BUF_LEN` on (R111). -/
theorem buffer_eof_iff (hs : s.stream = false) : s.nextInput = some .eof ↔ s.bufLen ≤ s.idx.toNat := by
  rw [nextInput_buffer hs, bufferNext]
  split
  · next hlt => simp [hlt]
  · next hge => simp [Nat.not_lt.mp hge]

/-- TRUNCATED is raised at the end of a buffer alone, with the count of bytes read before it (R117, decision D5). -/
theorem decStep_truncated (h : decStep strict stream l inp = .done .truncated v n) :
    inp = .eof ∧ stream = false ∧ n = l.idx := by
  cases inp with
  | eof =>
    obtain ⟨-, hs, hn⟩ | hc | hc := decStep_eof_kind h
    · exact ⟨rfl, hs, hn⟩
    · cases hc
    · cases hc
  | byte b =>
    have hbyte := decStep_byte strict stream l b
    rw [h] at hbyte
    cases hbyte

/-- The step that ends TRUNCATED is a buffer decode's at the end of the buffer (R172). -/
theorem exec_truncated (hb : s.busy = true) (h : exec i s = .next t) (hend : t.busy = false)
    (hcode : t.code = Code.truncated.bits) :
    (i = .decpB ∨ i = .decsB) ∧ s.bufLen ≤ s.idx.toNat ∧ t.count = s.idx := by
  obtain ⟨ho, inp, v, hin, hout⟩ := exec_ends_with (by decide) hb h hend hcode
  obtain ⟨rfl, hs, hn⟩ := decStep_truncated hout
  rw [← (exec_of_busy hb h).1]
  exact ⟨running_buffer.mpr ⟨ho, hs⟩, (buffer_eof_iff hs).mp hin, hn⟩

/-! ### OVERFLOW -/

/-- The cases of OVERFLOW: the command, the index, and the byte read there (R173, decisions D7 and D8). -/
def OverflowsAt (i : Instr) (idx : BitVec 4) (b : Byte) : Prop :=
  ((i = .decsB ∨ i = .decsS) ∧ idx = 8#4 ∧ contFlag b = true) ∨
  ((i = .decpB ∨ i = .decpS) ∧ idx = 9#4 ∧ contFlag b = false ∧ 1 < b.toNat) ∨
  (i = .decpB ∧ idx = 10#4) ∨
  (i = .decpS ∧ idx = 9#4 ∧ contFlag b = true)

section
variable {idx : BitVec 4}

theorem not_overflowsAt_size : ¬ OverflowsAt .size idx b := by simp [OverflowsAt]

theorem overflowsAt_decpB :
    OverflowsAt .decpB idx b ↔ idx = 9#4 ∧ contFlag b = false ∧ 1 < b.toNat ∨ idx = 10#4 := by
  simp [OverflowsAt]

theorem overflowsAt_decpS :
    OverflowsAt .decpS idx b ↔ idx = 9#4 ∧ (contFlag b = false ∧ 1 < b.toNat ∨ contFlag b = true) := by
  simp [OverflowsAt, and_or_left]

theorem overflowsAt_strict : OverflowsAt (decodeCommand true stream) idx b ↔ idx = 8#4 ∧ contFlag b = true := by
  cases stream <;> simp [OverflowsAt, decodeCommand]

/-- The counts of OVERFLOW in each command (R173). -/
theorem OverflowsAt.counts (h : OverflowsAt i idx b) :
    (i = .decsB ∨ i = .decsS → idx + 1#4 = 9#4) ∧ (i = .decpS → idx + 1#4 = 10#4) ∧
      (i = .decpB → idx + 1#4 = 10#4 ∨ idx + 1#4 = 11#4) := by
  rcases h with ⟨rfl | rfl, rfl, -⟩ | ⟨rfl | rfl, rfl, -⟩ | ⟨rfl, rfl⟩ | ⟨rfl, rfl, -⟩ <;> decide

end

theorem policyDecpB_overflow (hi : l.idx.toNat ≤ 10) (h : policyDecpB l (.byte b) = .done .overflow v n) :
    OverflowsAt .decpB l.idx b ∧ n = l.idx + 1#4 := by
  simp only [policyDecpB] at h
  split at h
  · next hten =>
    cases h
    exact ⟨overflowsAt_decpB.mpr (.inr (BitVec.eq_of_toNat_eq (Nat.le_antisymm hi hten))), rfl⟩
  · split at h
    · next hc =>
      split at h
      · next hwide =>
        obtain ⟨hnine, hwide⟩ := hwide
        have hidx : l.idx = 9#4 := BitVec.eq_of_toNat_eq hnine
        cases h
        exact ⟨overflowsAt_decpB.mpr (.inl ⟨hidx, by simpa using hc, hwide⟩), by rw [hidx]; rfl⟩
      · cases h
    · cases h

theorem policyDecpS_overflow (hi : l.idx.toNat ≤ 9) (h : policyDecpS l (.byte b) = .done .overflow v n) :
    OverflowsAt .decpS l.idx b ∧ n = l.idx + 1#4 := by
  have hlast (h9 : 9 ≤ l.idx.toNat) : l.idx = 9#4 := BitVec.eq_of_toNat_eq (Nat.le_antisymm hi h9)
  simp only [policyDecpS] at h
  split at h
  · next hc =>
    split at h
    · next hwide =>
      cases h
      exact ⟨overflowsAt_decpS.mpr ⟨hlast hwide.1, .inl ⟨by simpa using hc, hwide.2⟩⟩, rfl⟩
    · cases h
  · next hc =>
    split at h
    · next h9 =>
      cases h
      exact ⟨overflowsAt_decpS.mpr ⟨hlast h9, .inr (by simpa using hc)⟩, rfl⟩
    · cases h

/-- Within the strict cap the index alone decides: the clause `9 <= i` is dead (R152). -/
theorem strictByte_overflow (hi : l.idx.toNat ≤ 8) (h : strictByte l b = .done .overflow v n) :
    l.idx = 8#4 ∧ contFlag b = true ∧ n = l.idx + 1#4 := by
  unfold strictByte at h
  split at h
  · next hover =>
    obtain ⟨height, hc⟩ | hnine := hover
    · cases h
      exact ⟨BitVec.eq_of_toNat_eq height, hc, rfl⟩
    · omega
  · split at h
    · split at h <;> cases h
    · cases h

/-- Within its cap a policy raises OVERFLOW in the listed cases alone, and counts the byte read (R173). -/
theorem decStep_overflow (hi : l.idx.toNat ≤ idxCap (decodeCommand strict stream))
    (h : decStep strict stream l inp = .done .overflow v n) :
    ∃ b, inp = .byte b ∧ OverflowsAt (decodeCommand strict stream) l.idx b ∧ n = l.idx + 1#4 := by
  cases inp with
  | eof =>
    obtain ⟨hc, -⟩ | hc | hc := decStep_eof_kind h <;> cases hc
  | byte b =>
    refine ⟨b, rfl, ?_⟩
    cases strict with
    | false =>
      cases stream with
      | false => exact policyDecpB_overflow hi h
      | true => exact policyDecpS_overflow hi h
    | true =>
      rw [decStep_strict_byte] at h
      rw [idxCap_strict] at hi
      obtain ⟨hidx, hc, hn⟩ := strictByte_overflow hi h
      exact ⟨overflowsAt_strict.mpr ⟨hidx, hc⟩, hn⟩

/-- In each of the listed cases the policy raises OVERFLOW (R130, R131, R150, R151). -/
theorem decStep_of_overflowsAt (h : OverflowsAt (decodeCommand strict stream) l.idx b) :
    decStep strict stream l (.byte b) = .done .overflow none (l.idx + 1#4) := by
  cases strict with
  | true =>
    obtain ⟨hidx, hc⟩ := overflowsAt_strict.mp h
    rw [decStep_strict_byte]
    exact strictByte_ninth (by rw [hidx]; rfl) hc
  | false =>
    cases stream with
    | false =>
      obtain ⟨hidx, hc, hwide⟩ | hidx := overflowsAt_decpB.mp h
      · exact decStep_permissive_wide false hc (by rw [hidx]; rfl) hwide
      · exact policyDecpB_eleventh (by rw [hidx]; decide) b
    | true =>
      obtain ⟨hidx, ⟨hc, hwide⟩ | hc⟩ := overflowsAt_decpS.mp h
      · exact decStep_permissive_wide true hc (by rw [hidx]; rfl) hwide
      · exact policyDecpS_tenth (by rw [hidx]; decide) hc

/-- The step that ends OVERFLOW has read a byte of one of the listed cases, and counts it (R173). -/
theorem exec_overflow (hinv : s.Inv) (hb : s.busy = true) (h : exec i s = .next t) (hend : t.busy = false)
    (hcode : t.code = Code.overflow.bits) :
    ∃ b, s.nextInput = some (.byte b) ∧ OverflowsAt i s.idx b ∧ t.count = s.idx + 1#4 := by
  obtain ⟨ho, inp, v, hin, hout⟩ := exec_ends_with (by decide) hb h hend hcode
  have hcap := hinv.idx_le_cap
  obtain ⟨rfl, -⟩ := exec_of_busy hb h
  rw [running_eq_decodeCommand ho] at hcap ⊢
  obtain ⟨b, rfl, hover, hn⟩ := decStep_overflow hcap hout
  exact ⟨b, hin, hover, hn⟩

/-! ### NON_MINIMAL -/

/-- The strict latch of a running strict decode (R115). -/
theorem running_strict : s.running = .decsB ∨ s.running = .decsS ↔ s.opk = true ∧ s.strict = true := by
  unfold State.running
  split <;> simp_all

/-- The strict mode refuses as not minimal the byte `0x00` with `SHIFT > 0` alone (R174). -/
theorem decStep_strict_nonMinimal (h : decStep true stream l inp = .done .nonMinimal v n) :
    inp = .byte 0x00#8 ∧ 0 < l.shift.toNat ∧ n = l.idx + 1#4 := by
  cases inp with
  | eof =>
    obtain ⟨hc, -⟩ | hc | hc := decStep_eof_kind h <;> cases hc
  | byte b =>
    rw [decStep_strict_byte, strictByte] at h
    split at h
    · cases h
    · split at h
      · split at h
        · next hzero =>
          obtain ⟨rfl, hpos⟩ := hzero
          cases h
          exact ⟨rfl, hpos, rfl⟩
        · cases h
      · cases h

/-- The permissive mode never refuses an encoding as not minimal (R174). -/
theorem decStep_permissive_minimal (hi : l.idx.toNat ≤ idxCap (decodeCommand false stream))
    (hshift : l.shift.toNat = 7 * l.idx.toNat) : decStep false stream l inp ≠ .done .nonMinimal v n := by
  intro h
  have hkind := decStep_completes hi hshift h
  cases stream <;> simp [CompletionOf, decodeCommand, Code.bits] at hkind

/-- The step that ends NON_MINIMAL is a strict decode's on the byte `0x00` with `SHIFT > 0`, which it counts (R174). -/
theorem exec_nonMinimal (hinv : s.Inv) (hb : s.busy = true) (h : exec i s = .next t) (hend : t.busy = false)
    (hcode : t.code = Code.nonMinimal.bits) :
    (i = .decsB ∨ i = .decsS) ∧ s.nextInput = some (.byte 0x00#8) ∧ 0 < s.shift.toNat ∧ t.count = s.idx + 1#4 := by
  obtain ⟨ho, inp, v, hin, hout⟩ := exec_ends_with (by decide) hb h hend hcode
  have hcap := hinv.idx_le_cap
  obtain ⟨-, ⟨hshift, -⟩, -⟩ := hinv
  rw [running_eq_decodeCommand ho] at hcap
  rw [← (exec_of_busy hb h).1, running_strict]
  cases hstrict : s.strict with
  | false =>
    rw [hstrict] at hcap hout
    exact absurd hout (decStep_permissive_minimal hcap hshift)
  | true =>
    rw [hstrict] at hout
    obtain ⟨rfl, hpos, hn⟩ := decStep_strict_nonMinimal hout
    exact ⟨⟨ho, rfl⟩, hin, hpos, hn⟩

end Sys2Proof.Machine
end

section
open Sys2Proof Sys2Proof.Machine

/-- Settles O26: a buffer decode that finds the buffer's end has read all of it, by what the decode has read so far. -/
theorem truncatedExactlyWhen : Obligations.TruncatedExactlyWhen := by
  unfold Obligations.TruncatedExactlyWhen
  intro i s t hinv hread hb h
  obtain ⟨hrun, -⟩ := exec_of_busy hb h
  refine ⟨⟨fun ⟨hend, hcode⟩ => ?_, fun ⟨hi, hlen⟩ => ?_⟩, fun hend hcode => ?_⟩
  · obtain ⟨hi, hlen, -⟩ := exec_truncated hb h hend hcode
    exact ⟨hi, hlen⟩
  · rw [← hrun, running_buffer] at hi
    obtain ⟨ho, hs⟩ := hi
    exact exec_ends_of hb ho h ((buffer_eof_iff hs).mpr hlen) (by rw [decStep_eof, hs]; rfl)
  · obtain ⟨hi, hlen, hcount⟩ := exec_truncated hb h hend hcode
    rw [← hrun, running_buffer] at hi
    obtain ⟨ho, hs⟩ := hi
    obtain ⟨hle, hcont, -⟩ := hread hb ho hs
    have hall : s.idx.toNat = s.bufLen := Nat.le_antisymm hle hlen
    have hcap := hinv.idx_le_cap
    rw [hall] at hcont hcap
    rw [hrun] at hcap
    refine ⟨hcont, by rw [hcount, hall], ?_, ?_⟩
    · rintro rfl; exact hcap
    · rintro rfl; exact hcap

/-- Settles O27: the byte read is one of a listed case, and the policy's outcome there is OVERFLOW. -/
theorem overflowExactlyWhen : Obligations.OverflowExactlyWhen := by
  unfold Obligations.OverflowExactlyWhen
  intro i s t hinv hb h
  obtain ⟨hrun, -⟩ := exec_of_busy hb h
  refine ⟨⟨fun ⟨hend, hcode⟩ => ?_, fun ⟨b, hin, hover⟩ => ?_⟩, fun hend hcode => ?_⟩
  · obtain ⟨b, hin, hover, -⟩ := exec_overflow hinv hb h hend hcode
    exact ⟨b, hin, hover⟩
  · have hover : OverflowsAt i s.idx b := hover
    have ho : s.opk = true := opk_of_running_ne_size fun hsize => by
      rw [← hrun, hsize] at hover
      exact not_overflowsAt_size hover
    rw [← hrun, running_eq_decodeCommand ho] at hover
    exact exec_ends_of hb ho h hin (decStep_of_overflowsAt hover)
  · obtain ⟨b, -, hover, hcount⟩ := exec_overflow hinv hb h hend hcode
    rw [hcount]
    exact ⟨toNat_succ_idx (hinv.idx_le_cap.trans (idxCap_le_ten _)), hover.counts⟩

/-- Settles O28: the invariant ties `SHIFT` to `IDX`, and the strict cap bounds the index. -/
theorem nonMinimalExactlyWhen : Obligations.NonMinimalExactlyWhen := by
  unfold Obligations.NonMinimalExactlyWhen
  intro i s t hinv hb h
  obtain ⟨hrun, -⟩ := exec_of_busy hb h
  have hcap := hinv.idx_le_cap
  have hshift : 0 < s.shift.toNat ↔ 1 ≤ s.idx.toNat := by
    obtain ⟨-, ⟨hshift, -⟩, -⟩ := hinv
    omega
  have hstrict_cap (hi : i = .decsB ∨ i = .decsS) : s.idx.toNat ≤ 8 := by
    rw [hrun] at hcap
    rcases hi with rfl | rfl <;> exact hcap
  refine ⟨⟨fun ⟨hend, hcode⟩ => ?_, fun ⟨hi, hin, hpos⟩ => ?_⟩, hshift, fun hend hcode => ?_⟩
  · obtain ⟨hi, hin, hpos, -⟩ := exec_nonMinimal hinv hb h hend hcode
    exact ⟨hi, hin, hpos⟩
  · have height := hstrict_cap hi
    rw [← hrun, running_strict] at hi
    obtain ⟨ho, hstrict⟩ := hi
    have hout : decStep s.strict s.stream s.loop (.byte 0x00#8) = .done .nonMinimal none (s.idx + 1#4) := by
      rw [hstrict, decStep_strict_byte]
      exact strictByte_zero height hpos
    exact exec_ends_of hb ho h hin hout
  · obtain ⟨hi, -, hpos, hcount⟩ := exec_nonMinimal hinv hb h hend hcode
    have height := hstrict_cap hi
    rw [hcount]
    exact ⟨hshift.mp hpos, height, toNat_succ_idx (by omega)⟩

/-- Settles O12: a turn of the unit at rest, given to it by an empty script, a pass or a wait, and a wait that is over. -/
theorem idleUnitDoesNothing : Obligations.IdleUnitDoesNothing := by
  unfold Obligations.IdleUnitDoesNothing
  refine ⟨fun s hb hhost => ?_, fun s rest hb hhost => ?_, fun s rest hb hd hhost => ?_, fun s rest hb hd hhost => ?_⟩
  · rw [step_of_no_host hhost, afterTurn_of_not_busy hb]
  · rw [step_of_host hhost]
    exact unitTurn_of_not_busy (s := { s with host := rest }) hb
  · have hd' : ({ s with host := rest } : State).done = false := hd
    rw [step_of_host hhost, ← unitTurn_of_not_busy hb]
    simp [hostTurn, hd', ← hhost]
  · have hd' : ({ s with host := rest } : State).done = true := hd
    simp [step_of_host hhost, hostTurn, hd']
end

section
/-! SUPPORT. What a step answers to each host action, with respect to the host's duties (R203, R204, R208) and to the offsets it
names (R40); and what can keep a running operation waiting (R206). -/

namespace Sys2Proof.Machine

variable {s t : State} {rest : List HostAct}

/-! ### Register writes -/

theorem regWrite_cmd_of_busy (hb : s.busy = true) (v : Nat) : regWrite 0 v s = .refused .cmdWhileBusy := by
  simp [regWrite, cmdWrite, hb]

theorem regWrite_operand_of_busy {no : Nat} (hb : s.busy = true) (hno : no = 2 ∨ no = 3) (v : Nat) :
    regWrite no v s = .refused .operandWhileBusy := by
  rcases hno with rfl | rfl <;> simp [regWrite, hb]

/-- A `CMD` write outside phase RUN starts a command or completes an illegal one (R68, R110). -/
theorem exists_cmdWrite_of_not_busy (hb : s.busy = false) (w : Byte) : ∃ t, cmdWrite w s = .next t := by
  cases hw : decodeCmd w with
  | command i => exact ⟨s.start (encode i), by simp [cmdWrite, hb, hw, exec_of_not_busy i hb]⟩
  | illegal why => exact ⟨s.illegalCommand, by simp [cmdWrite, hb, hw]⟩

/-- Outside phase RUN every register write is allowed (R27, R203). -/
theorem exists_regWrite_of_not_busy (hb : s.busy = false) (no v : Nat) : ∃ t, regWrite no v s = .next t := by
  unfold regWrite
  split
  · exact exists_cmdWrite_of_not_busy hb _
  · simp [hb]
  · simp [hb]
  · exact ⟨s, rfl⟩

/-- In phase RUN a legal `STATUS` reads `BUSY = 1`, `DONE = 0` and no code (R12, R21). -/
theorem State.StatusLegal.statusRead_of_busy (h : s.StatusLegal) (hb : s.busy = true) : s.statusRead = 0x80#8 := by
  have hrun : ∀ st ∈ legalStatuses, st.getLsbD 7 = true → st &&& 0xCF#8 = 0x80#8 := by decide
  exact hrun s.status (statusLegal_iff.mp h) hb

/-! ### What a step answers to the host's next action -/

/-- This answer fits the host's next action: a refusal a broken duty, a fault an offset that the buffer does not have, a next state
neither of them. -/
def State.DutyAnswer (s : State) : Host.Outcome State Fault Refusal → Prop
  | .next _ => s.breaksDuty = false ∧ s.strays = false
  | .fault _ => s.breaksDuty = false ∧ s.strays = true
  | .refused _ => s.breaksDuty = true ∧ s.strays = false

theorem dutyAnswer_write {no v : Nat} (hhost : s.host = .write no v :: rest) : s.DutyAnswer (step s) := by
  have hduty : s.breaksDuty = (s.busy && (no == 0 || no == 2 || no == 3)) := by simp [State.breaksDuty, hhost]
  have hstrays : s.strays = false := by simp [State.strays, hhost]
  rw [step_of_host hhost, hostTurn]
  cases hb : s.busy with
  | false =>
    obtain ⟨t, ht⟩ := exists_regWrite_of_not_busy (s := { s with host := rest }) hb no v
    rw [ht]
    exact ⟨by simp [hduty, hb], hstrays⟩
  | true =>
    by_cases h0 : no = 0
    · rw [h0, regWrite_cmd_of_busy (s := { s with host := rest }) hb]
      exact ⟨by simp [hduty, hb, h0], hstrays⟩
    by_cases hop : no = 2 ∨ no = 3
    · rw [regWrite_operand_of_busy (s := { s with host := rest }) hb hop]
      exact ⟨by rcases hop with rfl | rfl <;> simp [hduty, hb], hstrays⟩
    · obtain ⟨h2, h3⟩ := not_or.mp hop
      rw [regWrite_ignored _ v h0 h2 h3]
      exact ⟨by simp [hduty, h0, h2, h3], hstrays⟩

theorem dutyAnswer_store {off : Nat} {b : Byte} (hhost : s.host = .store off b :: rest) : s.DutyAnswer (step s) := by
  have hduty : s.breaksDuty = (s.hasOffset off && s.holdsBuffer off) := by simp [State.breaksDuty, hhost]
  have hstrays : s.strays = !s.hasOffset off := by simp [State.strays, hhost]
  rw [step_store hhost]
  cases ho : s.hasOffset off with
  | false => exact ⟨by simp [hduty, ho], by simp [hstrays, ho]⟩
  | true => cases hh : s.holdsBuffer off <;> exact ⟨by simp [hduty, ho, hh], by simp [hstrays, ho]⟩

theorem step_load {off : Nat} (hhost : s.host = .load off :: rest) :
    step s =
      if !s.hasOffset off then .fault .noSuchOffset
      else .next { s with host := rest, hostRead := (Memory.read s.buf off).toNat } :=
  step_of_host hhost

theorem dutyAnswer_load {off : Nat} (hhost : s.host = .load off :: rest) : s.DutyAnswer (step s) := by
  have hduty : s.breaksDuty = false := by simp [State.breaksDuty, hhost]
  have hstrays : s.strays = !s.hasOffset off := by simp [State.strays, hhost]
  rw [step_load hhost]
  cases ho : s.hasOffset off <;> exact ⟨hduty, by simp [hstrays, ho]⟩

/-- Another agent at the stream is refused while a stream operation runs, and only then (R208). -/
theorem step_at_stream {a : HostAct} (hhost : s.host = a :: rest) (ha : a = .takeStream ∨ ∃ q after, a = .attach q after) :
    ∃ t, step s = if s.holdsStream then .refused .streamWhileBusy else .next t := by
  rw [step_of_host hhost]
  rcases ha with rfl | ⟨q, after, rfl⟩
  · exact ⟨_, rfl⟩
  · exact ⟨_, rfl⟩

theorem dutyAnswer_at_stream {a : HostAct} (hhost : s.host = a :: rest)
    (ha : a = .takeStream ∨ ∃ q after, a = .attach q after) : s.DutyAnswer (step s) := by
  have hduty : s.breaksDuty = s.holdsStream := by rcases ha with rfl | ⟨q, after, rfl⟩ <;> simp [State.breaksDuty, hhost]
  have hstrays : s.strays = false := by rcases ha with rfl | ⟨q, after, rfl⟩ <;> simp [State.strays, hhost]
  obtain ⟨t, ht⟩ := step_at_stream hhost ha
  rw [ht]
  cases hs : s.holdsStream <;> exact ⟨hduty.trans hs, hstrays⟩

/-- A wait that is over goes on, and one that is not gives the unit its turn (R69). -/
theorem exists_hostTurn_wait (s : State) : ∃ t, hostTurn .wait s = .next t := by
  rw [hostTurn, unitTurn_eq]
  split
  · exact ⟨_, rfl⟩
  · exact ⟨_, rfl⟩

/-- Every step's answer fits the host's next action, the unit's own turns among them. -/
theorem step_dutyAnswer (s : State) : s.DutyAnswer (step s) := by
  cases hhost : s.host with
  | nil => simp [step_of_no_host hhost, State.DutyAnswer, State.breaksDuty, State.strays, hhost]
  | cons a rest =>
    cases a with
    | write no v => exact dutyAnswer_write hhost
    | store off b => exact dutyAnswer_store hhost
    | load off => exact dutyAnswer_load hhost
    | attach q after => exact dutyAnswer_at_stream hhost (.inr ⟨q, after, rfl⟩)
    | takeStream => exact dutyAnswer_at_stream hhost (.inl rfl)
    | read no => simp [step_read hhost, State.DutyAnswer, State.breaksDuty, State.strays, hhost]
    | reset => simp [step_of_host hhost, hostTurn, State.DutyAnswer, State.breaksDuty, State.strays, hhost]
    | pass => simp [step_of_host hhost, hostTurn, unitTurn_eq, State.DutyAnswer, State.breaksDuty, State.strays, hhost]
    | wait =>
      obtain ⟨t, ht⟩ := exists_hostTurn_wait { s with host := rest }
      simp [step_of_host hhost, ht, State.DutyAnswer, State.breaksDuty, State.strays, hhost]

/-! ### Blocking -/

/-- With no answer listed and none to come, a stream gives none (R42, U9). -/
theorem nextInput_silent (hs : s.stream = true) (hq : s.strm = []) (ha : s.strmAfter = .silent) : s.nextInput = none := by
  simp [State.nextInput, hs, hq, ha]

/-- A stream operation whose source never answers takes no step, for ever (R206, U9). -/
theorem State.Decoding.run_silent (h : s.Decoding) (hs : s.stream = true) (hq : s.strm = []) (ha : s.strmAfter = .silent)
    (k : Nat) : core.run k s = .next s := by
  have hstep : step s = .next s := by
    rw [h.step_unanswered (nextInput_silent hs hq ha), fetched_of_no_event hq]
  induction k with
  | zero => rfl
  | succ k ih => rw [run_succ k hstep, ih]

/-- SIZE and the buffer operations have nothing to wait for: a unit step ends them, or reads the next byte (R206). -/
theorem RunEffect.ends_or_reads (h : RunEffect s t) (hinv : s.Inv) (hb : s.busy = true)
    (hsource : s.opk = false ∨ s.stream = false) :
    (t.busy = false ∧ t.done = true) ∨ (s.opk = true ∧ t.busy = true ∧ t.idx.toNat = s.idx.toNat + 1) := by
  cases h with
  | sized => exact .inl ⟨finish_busy .., finish_done ..⟩
  | blocked ho hin =>
    rcases hsource with ho' | hs
    · exact absurd (ho.symm.trans ho') (by decide)
    · exact absurd ((stream_of_nextInput_none hin).symm.trans hs) (by decide)
  | advanced b ho hin =>
    have hidx : (s.idx + 1#4).toNat = s.idx.toNat + 1 :=
      toNat_succ_idx (hinv.idx_le_cap.trans (idxCap_le_ten s.running))
    exact .inr ⟨ho, hb, hidx⟩
  | ok => exact .inl ⟨finish_busy .., finish_done ..⟩
  | failed => exact .inl ⟨finish_busy .., finish_done ..⟩

end Sys2Proof.Machine
end

section
open Sys2Proof Sys2Proof.Machine

/-- Settles O40: each answer fits the host's next action, and no action both breaks a duty and strays. -/
theorem refusedExactlyOnBrokenDuty : Obligations.RefusedExactlyOnBrokenDuty := by
  unfold Obligations.RefusedExactlyOnBrokenDuty
  intro s
  have hanswer := step_dutyAnswer s
  cases hstep : step s with
  | next t =>
    obtain ⟨hduty, hstrays⟩ : s.breaksDuty = false ∧ s.strays = false := by rwa [hstep] at hanswer
    exact ⟨by simp [hduty], by simp [hstrays], fun _ _ => ⟨t, rfl⟩⟩
  | fault f =>
    obtain ⟨hduty, hstrays⟩ : s.breaksDuty = false ∧ s.strays = true := by rwa [hstep] at hanswer
    exact ⟨by simp [hduty], iff_of_true ⟨f, rfl⟩ hstrays, by simp [hstrays]⟩
  | refused r =>
    obtain ⟨hduty, hstrays⟩ : s.breaksDuty = true ∧ s.strays = false := by rwa [hstep] at hanswer
    exact ⟨iff_of_true ⟨r, rfl⟩ hduty, by simp [hstrays], by simp [hduty]⟩

/-- Settles O41: a step without an answer, a run without any, and the unit steps that have nothing to wait for. -/
theorem streamBlocksAndBuffersNever : Obligations.StreamBlocksAndBuffersNever := by
  unfold Obligations.StreamBlocksAndBuffersNever
  refine ⟨fun s hb ho hs hin => ?_, fun s k hb ho hs hhost hq ha => ?_, fun s t hinv hb hsource h => ?_⟩
  · rw [exec_running hb, unitStep_decode ho, hin, Option.elim_none, fetched_of_stream hs]
  · exact State.Decoding.run_silent ⟨hhost, hb, ho⟩ hs hq ha k
  · exact (exec_busy_effect hb h).ends_or_reads hinv hb hsource

/-- Settles O2: the reset action is `State.applyReset` in every phase. -/
theorem resetInAnyPhase : Obligations.ResetInAnyPhase :=
  fun _ _ hhost => step_of_host hhost

/-- Settles O38: the refused writes, and what a read in phase RUN returns. -/
theorem noRegisterWriteWhileBusy : Obligations.NoRegisterWriteWhileBusy := by
  unfold Obligations.NoRegisterWriteWhileBusy
  refine ⟨fun s v rest hb => ⟨fun hhost => ?_, fun hhost => ?_, fun hhost => ?_⟩,
    fun s no rest hb hhost => ⟨_, step_read hhost, hb, fun hinv hno => ?_, fun hno => ?_, fun hno => ?_⟩⟩
  · rw [step_of_host hhost]
    exact regWrite_cmd_of_busy (s := { s with host := rest }) hb v
  · rw [step_of_host hhost]
    exact regWrite_operand_of_busy (s := { s with host := rest }) hb (.inl rfl) v
  · rw [step_of_host hhost]
    exact regWrite_operand_of_busy (s := { s with host := rest }) hb (.inr rfl) v
  · obtain ⟨hst, -⟩ := hinv
    subst hno
    change s.statusRead.toNat % 2 ^ 8 = 0x80
    rw [hst.statusRead_of_busy hb]
    rfl
  · subst hno
    rfl
  · subst hno
    exact Nat.mod_eq_of_lt s.count.isLt
end
